-- ==== Sys2Proof/Word.lean ====
section
/-! DEFINITION. The word types of the block (00_scope.md R11, R13) and nothing else. -/

namespace Sys2Proof

/-- `u8`: a byte of the serial stream or of the frame buffer. -/
abbrev Byte := BitVec 8

/-- `u16` (00_scope.md R11). -/
abbrev U16 := BitVec 16

/-- `u32` (00_scope.md R11): the operand width, the clock width (`CLOCK_BITS`, R9) and the response value's width. -/
abbrev U32 := BitVec 32

/-- A 104-bit command word, `OP` in bits 103:96, `A` 95:64, `B` 63:32, `C` 31:0 (30_encoding.md R71). -/
abbrev CommandWord := BitVec 104

/-- The regulator's number type `Num` (10_state.md R45): an exact rational. Under `NUMERICS = BINARY64` it holds the
rational value of a binary64 number (log 10). -/
abbrev Num := Rat

end Sys2Proof
end

