-- ==== Sys2Proof/Config.lean ====
section
/-! DEFINITION. The build-time parameters of 00_scope.md R9: the constants with one value, the parameters a block
instance may set, and the values the spec leaves open. -/

namespace Sys2Proof

/-- `FRAME_LEN` (R9). -/
abbrev Config.FRAME_LEN : Nat := 22
/-- `START_MARKER` (R9). -/
abbrev Config.START_MARKER : Byte := 0xFA#8
/-- `IDX_MIN` (R9). -/
abbrev Config.IDX_MIN : Nat := 0xA0
/-- `IDX_MAX` (R9). -/
abbrev Config.IDX_MAX : Nat := 0xF9
/-- `IDX_BASE` (R9). -/
abbrev Config.IDX_BASE : Int := 0xA0
/-- `CSUM_MASK` (R9), 15 bits. -/
abbrev Config.CSUM_MASK : Nat := 0x7FFF
/-- `WD_LO_NUM` of the lower band edge 8/10 (R9). -/
abbrev Config.WD_LO_NUM : Nat := 8
/-- `WD_LO_DEN` (R9). -/
abbrev Config.WD_LO_DEN : Nat := 10
/-- `WD_HI_NUM` of the upper band edge 11/10 (R9). -/
abbrev Config.WD_HI_NUM : Nat := 11
/-- `WD_HI_DEN` (R9). -/
abbrev Config.WD_HI_DEN : Nat := 10
/-- `WD_CNT_MAX` (R9): where the violation counter saturates. -/
abbrev Config.WD_CNT_MAX : Nat := 65535

/-- `IDX_POLICY` (R9): what happens to a frame whose index byte is out of range. -/
inductive IdxPolicy where
  | reject
  | accept
deriving DecidableEq, Repr

/-- `ANTI_WINDUP` (R9): whether the integrator itself is clamped to [0, 1]. -/
inductive AntiWindup where
  | integralClamp
  | outputClampOnly
deriving DecidableEq, Repr

/-- `GAIN_SCALING` (R9): whether the integral and derivative gains are per second or per sample. -/
inductive GainScaling where
  | perSecond
  | perSample
deriving DecidableEq, Repr

/-- `DERIV_ON` (R9): what the derivative term acts on. -/
inductive DerivOn where
  | measurement
  | error
deriving DecidableEq, Repr

/-- `NUMERICS` (R9): exact rationals, or one binary64 rounding after every operator. -/
inductive Numerics where
  | exact
  | binary64
deriving DecidableEq, Repr

/-- The parameters a block instance fixes at build time (R9). No command writes them. -/
structure Params where
  /-- `IDX_POLICY`. -/
  idxPolicy : IdxPolicy
  /-- `ANTI_WINDUP`. -/
  antiWindup : AntiWindup
  /-- `GAIN_SCALING`. -/
  gainScaling : GainScaling
  /-- `DERIV_ON`. -/
  derivOn : DerivOn
  /-- `NUMERICS`. -/
  numerics : Numerics
  /-- `SP_RESET_Q6`, the default setpoint. -/
  spResetQ6 : U32
  /-- `KP_RESET_U`. -/
  kpResetU : U32
  /-- `KI_RESET_U`. -/
  kiResetU : U32
  /-- `KD_RESET_U`. -/
  kdResetU : U32
  /-- `PERIOD_RESET_MS`. -/
  periodResetMs : U32
  /-- `WD_INTERVAL_MS`. -/
  wdIntervalMs : Nat
  /-- `WD_THRESHOLD`. -/
  wdThreshold : Nat
deriving DecidableEq, Repr

/-- The values of R9. -/
def Params.default : Params where
  idxPolicy := .reject
  antiWindup := .integralClamp
  gainScaling := .perSecond
  derivOn := .measurement
  numerics := .exact
  spResetQ6 := 19200#32
  kpResetU := 3000#32
  kiResetU := 1000#32
  kdResetU := 0#32
  periodResetMs := 20#32
  wdIntervalMs := 200
  wdThreshold := 10

/-- `PWM_QUANT` (R9, 43_speed_regulator.md R147): OPEN and outside the block, the pin driver's count for a duty
value. A free value: no rule depends on it (log 13). -/
opaque Config.pwmQuant : Num → Nat

/-- The quotient of a dividend and zero: the spec gives none (92_eei_decisions.md D10 calls `kd/Ts` with a zero period
undefined, 43_speed_regulator.md R131 says that every divisor is nonzero). A free value (log 12). -/
opaque Config.divByZero : Num → Num

end Sys2Proof
end

