-- ==== Sys2Proof/Machine/State.lean ====
section
/-! DEFINITION. The state of the block (10_state.md R45), its ports, its memory's type, and the reset state (R42). -/

namespace Sys2Proof.Machine

/-- `asm_state` (10_state.md R22): `SEEKING_START` is encoded 0, `ACCUMULATING` 1. -/
inductive AsmState where
  | seekingStart
  | accumulating
deriving DecidableEq, Repr

/-- The frame buffer as (offset, byte) cells in one canonical form: offsets strictly rising, every listed byte nonzero.
An offset that is not listed reads 0x00, the reset content (10_state.md R42). -/
abbrev Memory := List Host.Cell

/-- `STATUS` (30_encoding.md R80). Status 3 is never returned and has no constructor (log 15). -/
inductive Status where
  /-- 0: the command was performed. -/
  | ok
  /-- 1: reserved opcode or nonzero zero field, nothing performed. -/
  | illegal
  /-- 2: decoded, but the operand is not accepted, nothing performed. -/
  | rejected
deriving DecidableEq, Repr

/-- The response of a command (30_encoding.md R79). -/
structure Response where
  status : Status
  value : U32
deriving DecidableEq, Repr

/-- The fields of a `RAW_FRAME` event (30_encoding.md R85). `angle` is an s16 in two's complement. -/
structure RawFrame where
  ok : Bool
  cause : BitVec 2
  angle : U16
  len : BitVec 5
  data : Vector Byte 22
deriving DecidableEq, Repr

/-- The fields of a `SAMPLE` event (30_encoding.md R86). `angle` is an s16 in two's complement. -/
structure Sample where
  angle : U16
  dist : BitVec 14
  quality : U16
  err : BitVec 2
deriving DecidableEq, Repr

/-- An event, one constructor per event port (30_encoding.md R84). -/
inductive Event where
  | rawFrame (r : RawFrame)
  | sample (x : Sample)
  | pwm (duty : Num)
deriving DecidableEq, Repr

/-- What the host presents: a command word with the clock sample taken for it (30_encoding.md R71, R77), or reset,
which is no command (70_reset_and_hazards.md R221). -/
inductive Input where
  | command (word : CommandWord) (now : U32)
  | reset
deriving DecidableEq, Repr

/-- Why a step stops. -/
inductive Fault where
  /-- A buffer write at an offset 22..31, which does not exist (20_memory.md R50). Raised by FEED_BYTE with
  `asm_state = ACCUMULATING` and a cursor of 22 or more, a state that no run reaches. Safe: the model stops. -/
  | bufferOffset (offset : Nat)
deriving DecidableEq, Repr

/-- Why a step has no meaning. -/
inductive Refusal where
  /-- An instruction without a meaning in the model. No arm raises it. Safe: the model stops. -/
  | notModelled (mnemonic : String)
deriving DecidableEq, Repr

/-- The state record of 10_state.md R45 under the spec's register names, then the parameters of the instance and the
ports of 00_scope.md R7. -/
structure State where
  /-- R22. -/
  asm_state : AsmState
  /-- R23: the write cursor. -/
  asm_idx : BitVec 5
  /-- R24: the frame buffer. -/
  buf : Memory
  /-- R25: the measured speed, RPM × 64. -/
  rpm_q6 : U16
  /-- R26. -/
  rot_last_ms : U32
  /-- R27. -/
  rot_period_ms : U32
  /-- R28: the setpoint, RPM × 64. -/
  sp_q6 : U32
  /-- R29. -/
  kp_u : U32
  /-- R29. -/
  ki_u : U32
  /-- R29. -/
  kd_u : U32
  /-- R30. -/
  period_ms : U32
  /-- R31: the integrator. -/
  pid_I : Num
  /-- R32. -/
  y_prev_q6 : U16
  /-- R33. -/
  e_prev_q6 : Int
  /-- R34. -/
  pid_out : Num
  /-- R35. -/
  pid_last_ms : U32
  /-- R36. -/
  motor_en : Bool
  /-- R37. -/
  pwm_duty : Num
  /-- R38. -/
  wd_count : U16
  /-- R39. -/
  wd_last_ms : U32
  /-- The build-time parameters (00_scope.md R9). No step writes them (log 3). -/
  params : Params
  /-- What the host is still to present, in order (00_scope.md R8, 20_memory.md R59; log 2). -/
  pending : List Input
  /-- `NOW` of the command being performed (30_encoding.md R77; log 1). -/
  now : U32
  /-- The response of the last command, none where none was given (30_encoding.md R79; log 5). -/
  response : Option Response
  /-- The events of the last step, in emission order (30_encoding.md R84; log 5). -/
  events : List Event
deriving DecidableEq, Repr

/-- `Reset : Params -> State` (00_scope.md R7): the table of 10_state.md R42. The ports are empty: reset gives no
response and emits no event (70_reset_and_hazards.md R221); `pending` and `now` as log 4 says. -/
def State.resetWith (p : Params) : State where
  asm_state := .seekingStart
  asm_idx := 0#5
  buf := []
  rpm_q6 := 0#16
  rot_last_ms := 0#32
  rot_period_ms := 0#32
  sp_q6 := p.spResetQ6
  kp_u := p.kpResetU
  ki_u := p.kiResetU
  kd_u := p.kdResetU
  period_ms := p.periodResetMs
  pid_I := 0
  y_prev_q6 := 0#16
  e_prev_q6 := 0
  pid_out := 0
  pid_last_ms := 0#32
  motor_en := false
  pwm_duty := 0
  wd_count := 0#16
  wd_last_ms := 0#32
  params := p
  pending := []
  now := 0#32
  response := none
  events := []

/-- The block right after reset, with the parameter values of 00_scope.md R9. -/
def State.reset : State := State.resetWith Params.default

end Sys2Proof.Machine
end

