-- ==== Sys2Proof/Machine/Ops.lean ====
section
/-! DEFINITION. The shared operations over the frame buffer, the clock and the ports (00_scope.md R12, R14,
20_memory.md R52), and the one way the block answers an error. The block takes no exception: it saves no state,
changes no mode and goes to no handler, and so has no return from one (60_exceptions.md R190, R202, R203). What an
error condition does instead is `answerError` here, or an event or a response bit of its own rule. -/

namespace Sys2Proof.Machine

/-! ### The frame buffer -/

/-- The byte at an offset; an offset that is not listed reads 0x00 (10_state.md R42). -/
def Memory.read : Memory → Nat → Byte
  | [], _ => 0#8
  | (k, x) :: rest, a => if k = a then x else Memory.read rest a

/-- The buffer with byte `v` at offset `a`, in canonical form: writing 0x00 removes the cell. -/
def Memory.write : Memory → Nat → Byte → Memory
  | [], a, v => if v = 0#8 then [] else [(a, v)]
  | (k, x) :: rest, a, v =>
    if a < k then (if v = 0#8 then (k, x) :: rest else (a, v) :: (k, x) :: rest)
    else if a = k then (if v = 0#8 then rest else (a, v) :: rest)
    else (k, x) :: Memory.write rest a v

/-- The canonical form of the buffer: offsets strictly rising, every listed byte nonzero, and no offset outside the
buffer (20_memory.md R50). -/
abbrev Memory.wf (m : Memory) : Prop :=
  m.Pairwise (fun c d => c.1 < d.1) ∧ ∀ c ∈ m, c.2 ≠ 0#8 ∧ c.1 < Config.FRAME_LEN

/-- `MemRead(i, n)` (20_memory.md R52): `n` bytes from offset `i`, little-endian, unsigned. Every rule calls it at a
fixed offset inside the buffer (log 16). -/
def memRead (m : Memory) (i : Nat) : Nat → Nat
  | 0 => 0
  | n + 1 => (m.read i).toNat + 256 * memRead m (i + 1) n

/-- `MemWrite(i, 1, v)` (20_memory.md R52), a fault where the offset does not exist (R50; log 9). -/
def memWrite (i : Nat) (v : Byte) (s : State) : Except Fault State :=
  if i < Config.FRAME_LEN then .ok { s with buf := s.buf.write i v } else .error (.bufferOffset i)

/-- The frame is over (40_frame_assembler.md R94): every byte 0x00, the cursor 0, the assembler seeking. -/
def clearFrame (s : State) : State :=
  { s with buf := [], asm_idx := 0#5, asm_state := .seekingStart }

/-! ### The clock -/

/-- `elapsed(now, then)`: a u32 subtraction modulo 2^32 (00_scope.md R14). -/
def elapsed (now last : U32) : U32 := now - last

/-! ### The ports -/

/-- `emit E` (00_scope.md R12): `E` at the end of the step's event list. -/
def emit (e : Event) (s : State) : State := { s with events := s.events ++ [e] }

/-- `respond(status, value)` (00_scope.md R12). -/
def respond (st : Status) (v : U32) (s : State) : State := { s with response := some ⟨st, v⟩ }

/-- The answer to a command that performs nothing: an error status with value 0, no state change and no event.
`ILLEGAL` is 45_tick_and_queries.md R177, `REJECTED` 43_speed_regulator.md R144. -/
def answerError (st : Status) (s : State) : State := respond st 0#32 s

/-- A command begins (45_tick_and_queries.md R170): it is taken from the host's inputs, `NOW` is its clock sample, its
event list is empty and its response not yet given. -/
def beginCommand (now : U32) (rest : List Input) (s : State) : State :=
  { s with pending := rest, now := now, response := none, events := [] }

/-- Reset asserted between two commands (70_reset_and_hazards.md R220, R221): the registers take their reset values,
no event, no response; the host's further inputs and the clock sample stay (log 6). -/
def applyReset (rest : List Input) (s : State) : State :=
  { State.resetWith s.params with pending := rest, now := s.now }

end Sys2Proof.Machine
end

