-- ==== Sys2Proof/Machine/Flags.lean ====
section
/-! DEFINITION. The status signals and the bits of the response values (10_state.md R40, R41). The block has no
condition codes. -/

namespace Sys2Proof.Machine

/-- `wd_fault = (wd_count > WD_THRESHOLD)` (44_motor_watchdog.md R164). -/
def wdFault (s : State) : Bool := decide (s.params.wdThreshold < s.wd_count.toNat)

/-- `OutOfBand(y, s)`: the speed lies outside the closed band [0.8, 1.1] of the setpoint, in exact integers
(44_motor_watchdog.md R162). -/
def outOfBand (y : U16) (sp : U32) : Bool :=
  decide (Config.WD_LO_DEN * y.toNat < Config.WD_LO_NUM * sp.toNat)
    || decide (Config.WD_HI_NUM * sp.toNat < Config.WD_HI_DEN * y.toNat)

/-- `{ok, done}` zero-extended, FEED_BYTE's response value (40_frame_assembler.md R97). -/
def feedByteValue (ok done : Bool) : U32 :=
  (BitVec.ofBool ok ++ BitVec.ofBool done).setWidth 32

/-- `{c, w, f}` zero-extended, TICK's response value (45_tick_and_queries.md R173). -/
def tickValue (computed checked fault : Bool) : U32 :=
  (BitVec.ofBool computed ++ BitVec.ofBool checked ++ BitVec.ofBool fault).setWidth 32

/-- The PWM driver's level output (43_speed_regulator.md R147). -/
def pwmLevel (s : State) : Num := s.pwm_duty

/-- The pin driver's count for the level output, outside the block, through the open `PWM_QUANT` (R147; log 13). -/
def pinCount (s : State) : Nat := Config.pwmQuant (pwmLevel s)

end Sys2Proof.Machine
end

