-- ==== Sys2Proof/Machine/Operands.lean ====
section
/-! DEFINITION. Every operand form: how a command's operand is read (30_encoding.md R73 to R76) and how the fields of
the wire frame are read from the buffer (30_encoding.md R65 to R69). -/

namespace Sys2Proof.Machine

/-- A SET_TARGET operand, `sext(A)` (30_encoding.md R74). -/
def targetOperand (a : U32) : Int := a.toInt

/-- A gain operand in millionths, zero-extended (30_encoding.md R75, 00_scope.md R13). -/
def gainOperand (g : U32) : Int := g.toNat

/-- `INDEX` (30_encoding.md R65). -/
def frameIndex (m : Memory) : Nat := memRead m 1 1

/-- `SPEED`, RPM × 64 (30_encoding.md R67). -/
def frameSpeed (m : Memory) : U16 := BitVec.ofNat 16 (memRead m 2 2)

/-- `CSUM` (30_encoding.md R69). -/
def frameChecksum (m : Memory) : Nat := memRead m 20 2

/-- `base(i)` of quad `i` (30_encoding.md R65). -/
def quadBase (i : Nat) : Nat := 4 + 4 * i

/-- The two flag bits of quad `i`: bit 1 invalid-data, bit 0 strength-warning (30_encoding.md R68,
42_frame_decoder.md R115). -/
def quadErr (m : Memory) (i : Nat) : BitVec 2 := (m.read (quadBase i + 1)).extractLsb' 6 2

/-- The 14-bit distance field of quad `i` (30_encoding.md R68). -/
def quadDist (m : Memory) (i : Nat) : BitVec 14 :=
  (m.read (quadBase i + 1)).extractLsb' 0 6 ++ m.read (quadBase i)

/-- The 16-bit strength field of quad `i` (30_encoding.md R68). -/
def quadQuality (m : Memory) (i : Nat) : U16 := BitVec.ofNat 16 (memRead m (quadBase i + 2) 2)

/-- The 22 bytes of the frame, offset 0 first (42_frame_decoder.md R119). -/
def frameBytes (m : Memory) : Vector Byte 22 := Vector.ofFn fun i => m.read i.val

/-- `g = idx - 0xA0`, an integer (42_frame_decoder.md R112). -/
def frameGroup (m : Memory) : Int := frameIndex m - Config.IDX_BASE

/-- The group's first angle in degrees, `g * 4`, an integer (42_frame_decoder.md R112). -/
def firstAngle (m : Memory) : Int := frameGroup m * 4

/-- An angle as the s16 of an event field (42_frame_decoder.md R112, R121). -/
def angleField (a : Int) : U16 := BitVec.ofInt 16 a

end Sys2Proof.Machine
end

