-- ==== Sys2Proof/Machine/Frame.lean ====
section
/-! DEFINITION. The frame validator (41_frame_validator.md), the frame decoder and the frame-complete pipeline
(42_frame_decoder.md), and the frame assembler's command FEED_BYTE (40_frame_assembler.md). -/

namespace Sys2Proof.Machine

/-! ### Validator -/

/-- The ten little-endian words `w[k] = MemRead(2k, 2)` (R100). -/
def checksumWords (m : Memory) : List Nat := (List.range 10).map fun k => memRead m (2 * k) 2

/-- The fold `acc <- (acc << 1) + w[k]`, unbounded (R101). -/
def checksumAcc (m : Memory) : Nat := (checksumWords m).foldl (fun acc w => (acc <<< 1) + w) 0

/-- `c = ((acc & 0x7FFF) + (acc >> 15)) & 0x7FFF` (R102). -/
def reduceChecksum (acc : Nat) : Nat :=
  ((acc &&& Config.CSUM_MASK) + (acc >>> 15)) &&& Config.CSUM_MASK

/-- `Validate()` (R102). -/
def validate (m : Memory) : Bool := reduceChecksum (checksumAcc m) == frameChecksum m

/-! ### Decoder -/

/-- The index byte is in 0xA0..0xF9 (42_frame_decoder.md R111). -/
def indexInRange (m : Memory) : Bool :=
  decide (Config.IDX_MIN ≤ frameIndex m) && decide (frameIndex m ≤ Config.IDX_MAX)

/-- The SAMPLE of quad `i`: zero distance and quality where the error code is not zero (R115 to R118). -/
def quadSample (m : Memory) (i : Nat) : Sample where
  angle := angleField (firstAngle m + i)
  dist := if quadErr m i = 0#2 then quadDist m i else 0#14
  quality := if quadErr m i = 0#2 then quadQuality m i else 0#16
  err := quadErr m i

/-- The failure notification with its cause, 1 checksum or 2 index (R120, 30_encoding.md R85). -/
def failureEvent (cause : BitVec 2) : Event := .rawFrame ⟨false, cause, 0#16, 0#5, Vector.replicate 22 0#8⟩

/-- The success notification (R119, 30_encoding.md R85). -/
def successEvent (m : Memory) : Event :=
  .rawFrame ⟨true, 0#2, angleField (firstAngle m), 22#5, frameBytes m⟩

/-- The events of an accepted frame: RAW_FRAME, then the samples of quads 0, 1, 2, 3 (R110, R118). -/
def acceptedEvents (m : Memory) : List Event :=
  [successEvent m, .sample (quadSample m 0), .sample (quadSample m 1), .sample (quadSample m 2),
    .sample (quadSample m 3)]

/-- Rotation timing (R113): only a group-0 frame writes it. -/
def updateRotation (s : State) : State :=
  if firstAngle s.buf = 0 then
    { s with rot_period_ms := elapsed s.now s.rot_last_ms, rot_last_ms := s.now }
  else s

/-- An accepted frame is decoded (R112 to R119). -/
def decodeFrame (s : State) : State :=
  let s1 := updateRotation s
  let s2 := { s1 with rpm_q6 := frameSpeed s1.buf }
  { s2 with events := s2.events ++ acceptedEvents s2.buf }

/-- `FrameComplete(now)` (R110): whether the frame was accepted, and the state. The checksum is tested before the
index (R111, 60_exceptions.md R201). -/
def frameComplete (s : State) : Bool × State :=
  if !validate s.buf then (false, emit (failureEvent 1#2) s)
  else if decide (s.params.idxPolicy = .reject) && !indexInRange s.buf then (false, emit (failureEvent 2#2) s)
  else (true, decodeFrame s)

/-! ### Assembler -/

/-- A byte in `SEEKING_START` (40_frame_assembler.md R91): discarded unless it is the start marker. -/
def seekByte (b : Byte) (s : State) : State :=
  if b = Config.START_MARKER then
    { s with buf := s.buf.write 0 b, asm_idx := 1#5, asm_state := .accumulating }
  else s

/-- The cursor moves past the byte just stored; at 22 the pipeline runs and the frame is cleared (R92 to R94). -/
def advanceFrame (s : State) : State :=
  let s1 := { s with asm_idx := s.asm_idx + 1#5 }
  if s1.asm_idx.toNat = Config.FRAME_LEN then
    let r := frameComplete s1
    respond .ok (feedByteValue r.1 true) (clearFrame r.2)
  else respond .ok (feedByteValue false false) s1

/-- FEED_BYTE (R90). -/
def execFeedByte (b : Byte) (s : State) : Host.Outcome State Fault Refusal :=
  match s.asm_state with
  | .seekingStart => .next (respond .ok (feedByteValue false false) (seekByte b s))
  | .accumulating =>
    match memWrite s.asm_idx.toNat b s with
    | .error f => .fault f
    | .ok s1 => .next (advanceFrame s1)

end Sys2Proof.Machine
end

