-- ==== Sys2Proof/Machine/Numerics.lean ====
section
/-! DEFINITION. The regulator's arithmetic (43_speed_regulator.md R131): exact rationals under `NUMERICS = EXACT`, one
binary64 rounding after every operator under `NUMERICS = BINARY64`. A binary64 number is its rational value: the two
zeros are one number (log 10), and the exponent has no upper bound (log 11). -/

namespace Sys2Proof.Machine

/-- The exponent `t` of the unit in the last place for the positive rational `a / d`: with `2^e <= a/d < 2^(e+1)`, the
larger of `e - 52` (53 significant bits) and -1074 (the subnormal numbers). -/
def binary64Quantum (a d : Nat) : Int :=
  let e0 : Int := (a.log2 : Int) - (d.log2 : Int)
  let e : Int := if d * 2 ^ e0.toNat ≤ a * 2 ^ (-e0).toNat then e0 else e0 - 1
  max (e - 52) (-1074)

/-- `n / d` rounded to the nearest natural number, ties to the even one. -/
def divNearestEven (n d : Nat) : Nat :=
  let k := n / d
  let r := n % d
  if 2 * r < d then k else if d < 2 * r then k + 1 else if k % 2 = 0 then k else k + 1

/-- The magnitude `a / d` rounded to binary64. -/
def roundMagnitude (a d : Nat) : Num :=
  let t := binary64Quantum a d
  let k := divNearestEven (a * 2 ^ (-t).toNat) (d * 2 ^ t.toNat)
  mkRat (k * 2 ^ t.toNat : Nat) (2 ^ (-t).toNat)

/-- Round to the nearest binary64 number, ties to even (R131). -/
def roundBinary64 (q : Num) : Num :=
  if q.num = 0 then 0
  else if q.num < 0 then -roundMagnitude q.num.natAbs q.den
  else roundMagnitude q.num.natAbs q.den

/-- What `NUMERICS` does to the exact result of an operator (R131). -/
def roundResult : Numerics → Num → Num
  | .exact, q => q
  | .binary64, q => roundBinary64 q

/-- `a + b` of R132. -/
def numAdd (n : Numerics) (a b : Num) : Num := roundResult n (a + b)
/-- `a * b` of R132. -/
def numMul (n : Numerics) (a b : Num) : Num := roundResult n (a * b)
/-- `a / b` of R132. Every divisor of R132 is nonzero where `period_ms` is; a quotient by zero is a free value
(log 12). -/
def numDiv (n : Numerics) (a b : Num) : Num :=
  roundResult n (if b = 0 then Config.divByZero a else a / b)
/-- The unary minus of R132. -/
def numNeg (n : Numerics) (a : Num) : Num := roundResult n (-a)

/-- `clamp01(x) = min(1, max(0, x))` (00_scope.md R12), an exact comparison under both settings (R131). -/
def clamp01 (x : Num) : Num := min 1 (max 0 x)

end Sys2Proof.Machine
end

