-- ==== Sys2Proof/Machine/Regulator.lean ====
section
/-! DEFINITION. The speed regulator, the PWM output driver, and the commands SET_TARGET, SET_TUNINGS, SET_PERIOD,
ENABLE and DISABLE (43_speed_regulator.md). -/

namespace Sys2Proof.Machine

/-! ### The terms of the PID step (R132) -/

/-- `e_q6 = sp_q6 - rpm_q6`, an exact integer (R135). -/
def errorQ6 (s : State) : Int := (s.sp_q6.toNat : Int) - (s.rpm_q6.toNat : Int)

/-- `e = e_q6 / 64` RPM (R135). -/
def errorRpm (s : State) : Num := numDiv s.params.numerics (errorQ6 s) 64

/-- `Ts = period_ms / 1000` seconds (R136). -/
def samplePeriod (s : State) : Num := numDiv s.params.numerics s.period_ms.toNat 1000

/-- A gain register over 10^6 (R136). -/
def gain (n : Numerics) (g : U32) : Num := numDiv n (gainOperand g) 1000000

/-- `kp` (R136). -/
def gainP (s : State) : Num := gain s.params.numerics s.kp_u

/-- `ki_s`: scaled by the sample period under `PER_SECOND` (R136). -/
def gainI (s : State) : Num :=
  match s.params.gainScaling with
  | .perSecond => numMul s.params.numerics (gain s.params.numerics s.ki_u) (samplePeriod s)
  | .perSample => gain s.params.numerics s.ki_u

/-- `kd_s`: divided by the sample period under `PER_SECOND` (R136). -/
def gainD (s : State) : Num :=
  match s.params.gainScaling with
  | .perSecond => numDiv s.params.numerics (gain s.params.numerics s.kd_u) (samplePeriod s)
  | .perSample => gain s.params.numerics s.kd_u

/-- `I`: the integrator after this sample, clamped under `INTEGRAL_CLAMP` (R137). -/
def integralTerm (s : State) : Num :=
  let i := numAdd s.params.numerics s.pid_I (numMul s.params.numerics (gainI s) (errorRpm s))
  match s.params.antiWindup with
  | .integralClamp => clamp01 i
  | .outputClampOnly => i

/-- `D`, on the measurement or on the error (R138). -/
def derivativeTerm (s : State) : Num :=
  let n := s.params.numerics
  match s.params.derivOn with
  | .measurement =>
    numNeg n (numMul n (gainD s) (numDiv n ((s.rpm_q6.toNat : Int) - (s.y_prev_q6.toNat : Int) : Int) 64))
  | .error => numMul n (gainD s) (numDiv n (errorQ6 s - s.e_prev_q6 : Int) 64)

/-- `u = clamp01((kp * e + I) + D)` (R139). -/
def pidOutput (s : State) : Num :=
  let n := s.params.numerics
  clamp01 (numAdd n (numAdd n (numMul n (gainP s) (errorRpm s)) (integralTerm s)) (derivativeTerm s))

/-! ### The PWM output driver -/

/-- The driver is set to a duty with one PWM event that carries it (10_state.md R37). -/
def setDuty (u : Num) (s : State) : State := emit (.pwm u) { s with pwm_duty := u }

/-- Change detection (R141): a duty that differs from the last one emitted is set, an equal one is not. -/
def driveDuty (u : Num) (s : State) : State := if u ≠ s.pwm_duty then setDuty u s else s

/-! ### The PID step -/

/-- The writes of an effective compute (R133, R140) and the output driver (R141). Every term is a function of the
state before the compute. -/
def pidCompute (s : State) : State :=
  driveDuty (pidOutput s)
    { s with
      pid_last_ms := s.now
      pid_I := integralTerm s
      y_prev_q6 := s.rpm_q6
      e_prev_q6 := errorQ6 s
      pid_out := pidOutput s }

/-- Whether the PID step computes: the motor is enabled and the sample period has passed (R133, R134). -/
def pidDue (s : State) : Bool :=
  s.motor_en && decide (s.period_ms.toNat ≤ (elapsed s.now s.pid_last_ms).toNat)

/-- `PidStep(now)` (R132): whether it computed, and the state. -/
def pidStep (s : State) : Bool × State := if pidDue s then (true, pidCompute s) else (false, s)

/-! ### The commands -/

/-- SET_TARGET (R142): a request that is not positive stores the default. -/
def execSetTarget (a : U32) (s : State) : Host.Outcome State Fault Refusal :=
  let sp := if targetOperand a ≤ 0 then s.params.spResetQ6 else a
  .next (respond .ok sp { s with sp_q6 := sp })

/-- SET_TUNINGS (R143). -/
def execSetTunings (kp ki kd : U32) (s : State) : Host.Outcome State Fault Refusal :=
  .next (respond .ok 0#32 { s with kp_u := kp, ki_u := ki, kd_u := kd })

/-- SET_PERIOD (R144): a period of 0 is answered `REJECTED`. -/
def execSetPeriod (ms : U32) (s : State) : Host.Outcome State Fault Refusal :=
  if ms = 0#32 then .next (answerError .rejected s)
  else .next (respond .ok 0#32 { s with period_ms := ms })

/-- ENABLE (R145). -/
def execEnable (s : State) : Host.Outcome State Fault Refusal :=
  .next (respond .ok 0#32 (setDuty s.pid_out { s with motor_en := true, wd_count := 0#16 }))

/-- DISABLE (R146). -/
def execDisable (s : State) : Host.Outcome State Fault Refusal :=
  .next (respond .ok 0#32 (setDuty 0 { s with motor_en := false }))

end Sys2Proof.Machine
end

