-- ==== Sys2Proof/Machine/Tick.lean ====
section
/-! DEFINITION. The motor watchdog's step (44_motor_watchdog.md), TICK and the three queries
(45_tick_and_queries.md). -/

namespace Sys2Proof.Machine

/-! ### The watchdog -/

/-- Whether a check is effective: the interval has passed (44_motor_watchdog.md R160). -/
def wdDue (s : State) : Bool := decide (s.params.wdIntervalMs ≤ (elapsed s.now s.wd_last_ms).toNat)

/-- The counter after an effective check: one more, saturating, or 0 (R163). -/
def wdNextCount (s : State) : U16 :=
  if s.motor_en && outOfBand s.rpm_q6 s.sp_q6 then
    BitVec.ofNat 16 (min (s.wd_count.toNat + 1) Config.WD_CNT_MAX)
  else 0#16

/-- An effective check (R160, R163). -/
def wdCheck (s : State) : State := { s with wd_last_ms := s.now, wd_count := wdNextCount s }

/-- `WdStep(now)` (R161): whether the check was effective, and the state. -/
def wdStep (s : State) : Bool × State := if wdDue s then (true, wdCheck s) else (false, s)

/-! ### The commands -/

/-- TICK (45_tick_and_queries.md R171): the PID step, then the watchdog step (R172). -/
def execTick (s : State) : Host.Outcome State Fault Refusal :=
  let p := pidStep s
  let w := wdStep p.2
  .next (respond .ok (tickValue p.1 w.1 (wdFault w.2)) w.2)

/-- GET_RPM (R174). -/
def execGetRpm (s : State) : Host.Outcome State Fault Refusal :=
  .next (respond .ok (s.rpm_q6.setWidth 32) s)

/-- GET_ENABLED (R175). -/
def execGetEnabled (s : State) : Host.Outcome State Fault Refusal :=
  .next (respond .ok ((BitVec.ofBool s.motor_en).setWidth 32) s)

/-- GET_ROT_PERIOD (R176). -/
def execGetRotPeriod (s : State) : Host.Outcome State Fault Refusal :=
  .next (respond .ok s.rot_period_ms s)

end Sys2Proof.Machine
end

