-- ==== Sys2Proof/Syntax.lean ====
section
/-! DEFINITION. The commands of the block, one constructor per row of spec/opcode_table.json (30_encoding.md R81).
Every operand has exactly the width its encoding gives it, so that every term is a command the port can carry. -/

namespace Sys2Proof

inductive Instr where
  /-- `FEED_BYTE` (0x01, format FB): the next byte of the serial stream. -/
  | feedByte (b : Byte)
  /-- `TICK` (0x02, format F0). -/
  | tick
  /-- `ENABLE` (0x03, format F0). -/
  | enable
  /-- `DISABLE` (0x04, format F0). -/
  | disable
  /-- `SET_TARGET` (0x05, format FW): the requested setpoint, an s32 in Q6. -/
  | setTarget (a : U32)
  /-- `SET_TUNINGS` (0x06, format F3W): the three gains in micro-units. -/
  | setTunings (kp ki kd : U32)
  /-- `SET_PERIOD` (0x07, format FW): the sample period in milliseconds. -/
  | setPeriod (ms : U32)
  /-- `GET_RPM` (0x08, format F0). -/
  | getRpm
  /-- `GET_ENABLED` (0x09, format F0). -/
  | getEnabled
  /-- `GET_ROT_PERIOD` (0x0A, format F0). -/
  | getRotPeriod
deriving DecidableEq, Repr

end Sys2Proof
end

