-- ==== Sys2Proof/Machine/Dispatch.lean ====
section
/-! DEFINITION. One arm per instruction (45_tick_and_queries.md R170). -/

namespace Sys2Proof.Machine

def exec (i : Instr) (s : State) : Host.Outcome State Fault Refusal :=
  match i with
  | .feedByte b => Sys2Proof.Machine.execFeedByte b s
  | .tick => Sys2Proof.Machine.execTick s
  | .enable => Sys2Proof.Machine.execEnable s
  | .disable => Sys2Proof.Machine.execDisable s
  | .setTarget a => Sys2Proof.Machine.execSetTarget a s
  | .setTunings kp ki kd => Sys2Proof.Machine.execSetTunings kp ki kd s
  | .setPeriod ms => Sys2Proof.Machine.execSetPeriod ms s
  | .getRpm => Sys2Proof.Machine.execGetRpm s
  | .getEnabled => Sys2Proof.Machine.execGetEnabled s
  | .getRotPeriod => Sys2Proof.Machine.execGetRotPeriod s

end Sys2Proof.Machine
end

