-- ==== Sys2Proof/Decode.lean ====
section
/-! DEFINITION. Decoding a command word (30_encoding.md R71, R72, R82) and encoding an instruction. -/

namespace Sys2Proof

/-- Why a word is `ILLEGAL` (30_encoding.md R83). Both are answered alike (45_tick_and_queries.md R177). -/
inductive DecodeError where
  /-- The opcode is 0x00 or in 0x0B..0xFF. Answered by the illegal answer: safe. -/
  | reservedOpcode (op : Byte)
  /-- A defined opcode with a nonzero "zero" field. Answered by the illegal answer: safe. -/
  | nonzeroField (op : Byte)
deriving DecidableEq, Repr

/-- `OP`, bits 103:96 (R71). -/
def opField (w : CommandWord) : Byte := w.extractLsb' 96 8
/-- Operand `A`, bits 95:64 (R71). -/
def aField (w : CommandWord) : U32 := w.extractLsb' 64 32
/-- Operand `B`, bits 63:32 (R71). -/
def bField (w : CommandWord) : U32 := w.extractLsb' 32 32
/-- Operand `C`, bits 31:0 (R71). -/
def cField (w : CommandWord) : U32 := w.extractLsb' 0 32

/-- The instruction `i` where the opcode's zero fields are zero, the named rejection where they are not. -/
def decodeWhen (zeroFields : Bool) (op : Byte) (i : Instr) : Except DecodeError Instr :=
  if zeroFields then .ok i else .error (.nonzeroField op)

/-- `decode` of R82, total over all words. -/
def decode (w : CommandWord) : Except DecodeError Instr :=
  let op := opField w
  let a := aField w
  let b := bField w
  let c := cField w
  let f0 := a == 0#32 && b == 0#32 && c == 0#32
  let fw := b == 0#32 && c == 0#32
  if op = 0x01#8 then decodeWhen (a.extractLsb' 8 24 == 0#24 && fw) op (.feedByte (a.extractLsb' 0 8))
  else if op = 0x02#8 then decodeWhen f0 op .tick
  else if op = 0x03#8 then decodeWhen f0 op .enable
  else if op = 0x04#8 then decodeWhen f0 op .disable
  else if op = 0x05#8 then decodeWhen fw op (.setTarget a)
  else if op = 0x06#8 then .ok (.setTunings a b c)
  else if op = 0x07#8 then decodeWhen fw op (.setPeriod a)
  else if op = 0x08#8 then decodeWhen f0 op .getRpm
  else if op = 0x09#8 then decodeWhen f0 op .getEnabled
  else if op = 0x0A#8 then decodeWhen f0 op .getRotPeriod
  else .error (.reservedOpcode op)

/-- A command word from its four fields (R71). -/
def packWord (op : Byte) (a b c : U32) : CommandWord := op ++ a ++ b ++ c

/-- The word of an instruction (R72, R81). -/
def encode : Instr → CommandWord
  | .feedByte b => packWord 0x01#8 (b.setWidth 32) 0#32 0#32
  | .tick => packWord 0x02#8 0#32 0#32 0#32
  | .enable => packWord 0x03#8 0#32 0#32 0#32
  | .disable => packWord 0x04#8 0#32 0#32 0#32
  | .setTarget a => packWord 0x05#8 a 0#32 0#32
  | .setTunings kp ki kd => packWord 0x06#8 kp ki kd
  | .setPeriod ms => packWord 0x07#8 ms 0#32 0#32
  | .getRpm => packWord 0x08#8 0#32 0#32 0#32
  | .getEnabled => packWord 0x09#8 0#32 0#32 0#32
  | .getRotPeriod => packWord 0x0A#8 0#32 0#32 0#32

/-- The command word that a table row's bits stand for: the table numbers the 104 bits of the word as R71 does, and
bits from `nbits` up are 0 (log 8). -/
def tableWord (nbits w : Nat) : CommandWord := BitVec.ofNat 104 (w % 2 ^ nbits)

/-- The instruction the decoder reads from a word of spec/opcode_table.json's numbering, none where it rejects it. -/
def decodeTableWord (nbits w : Nat) : Option Instr :=
  match decode (tableWord nbits w) with
  | .ok i => some i
  | .error _ => none

end Sys2Proof
end

