-- ==== Sys2Proof/Machine/Port.lean ====
section
/-! DEFINITION. The command port: what the block takes from the host at each step, and how an input is presented to
it (00_scope.md R7, R8, 20_memory.md R59). -/

namespace Sys2Proof.Machine

/-- The next input and those after it, none where the host presents nothing. -/
def State.nextInput (s : State) : Option (Input × List Input) :=
  match s.pending with
  | [] => none
  | x :: rest => some (x, rest)

/-- Nothing is presented: the block holds its state (60_exceptions.md R209). -/
def idle (s : State) : State := s

/-- The host presents `x` as the very next input. -/
def State.present (x : Input) (s : State) : State := { s with pending := x :: s.pending }

/-- The command word of a table row, presented with the clock sample the block last saw (log 7, log 8). -/
def State.presentTableWord (nbits w : Nat) (s : State) : State :=
  s.present (.command (tableWord nbits w) s.now)

end Sys2Proof.Machine
end

