-- ==== Sys2Proof/Machine/Step.lean ====
section
/-! DEFINITION. One step of the block (45_tick_and_queries.md R170): one command, or reset, or nothing. -/

namespace Sys2Proof.Machine

/-- The step: the next input is performed to its end. A word that does not decode is answered `(ILLEGAL, 0)`
(R177). -/
def step (s : State) : Host.Outcome State Fault Refusal :=
  match s.nextInput with
  | none => .next (idle s)
  | some (.reset, rest) => .next (applyReset rest s)
  | some (.command w now, rest) =>
    match decode w with
    | .ok i => exec i (beginCommand now rest s)
    | .error _ => .next (answerError .illegal (beginCommand now rest s))

/-- `s` with the instruction whose table bits are `w` presented as the very next command (log 7). -/
def State.withFetchWord (s : State) (nbits w : Nat) : State := s.presentTableWord nbits w

end Sys2Proof.Machine
end

