-- ==== Sys2Proof/Machine/CommandStream.lean ====
section
/-! DEFINITION. The spec's textual command stream (30_encoding.md R88) and its pseudo-commands (R89), as data: a line
is a clock sample, a mnemonic and integer operands. The block never sees a line, only the inputs it assembles to
(log 18). -/

namespace Sys2Proof.Machine

/-- A mnemonic with its written operands (R88). -/
inductive StreamCommand where
  | feedByte (b : Int)
  | tick
  | enable
  | disable
  | setTarget (q6 : Int)
  | setTunings (kp ki kd : Int)
  | setPeriod (ms : Int)
  | getRpm
  | getEnabled
  | getRotPeriod
deriving DecidableEq, Repr

/-- `@now mnemonic operands` (R88). -/
structure StreamLine where
  now : Nat
  cmd : StreamCommand
deriving DecidableEq, Repr

/-- An unsigned operand of `n` bits. -/
def fitsUnsigned (n : Nat) (v : Int) : Bool := decide (0 ≤ v) && decide (v < 2 ^ n)

/-- A 32-bit two's-complement operand. -/
def fitsSigned32 (v : Int) : Bool := decide (-(2 ^ 31) ≤ v) && decide (v < 2 ^ 31)

/-- The written operands fit the fields they are encoded in (R72 to R76). -/
def StreamCommand.wf : StreamCommand → Bool
  | .feedByte b => fitsUnsigned 8 b
  | .setTarget q6 => fitsSigned32 q6
  | .setTunings kp ki kd => fitsUnsigned 32 kp && fitsUnsigned 32 ki && fitsUnsigned 32 kd
  | .setPeriod ms => fitsUnsigned 32 ms
  | .tick | .enable | .disable | .getRpm | .getEnabled | .getRotPeriod => true

/-- The line's clock sample is a u32 and its operands fit. -/
def StreamLine.wf (l : StreamLine) : Bool := decide (l.now < 2 ^ 32) && l.cmd.wf

/-- The instruction of a line; SET_TARGET's operand is its 32-bit two's complement (R88). -/
def StreamCommand.instr : StreamCommand → Instr
  | .feedByte b => .feedByte (BitVec.ofInt 8 b)
  | .tick => .tick
  | .enable => .enable
  | .disable => .disable
  | .setTarget q6 => .setTarget (BitVec.ofInt 32 q6)
  | .setTunings kp ki kd => .setTunings (BitVec.ofInt 32 kp) (BitVec.ofInt 32 ki) (BitVec.ofInt 32 kd)
  | .setPeriod ms => .setPeriod (BitVec.ofInt 32 ms)
  | .getRpm => .getRpm
  | .getEnabled => .getEnabled
  | .getRotPeriod => .getRotPeriod

/-- The input a well-formed line assembles to. -/
def StreamLine.assemble (l : StreamLine) : Option Input :=
  if l.wf then some (.command (encode l.cmd.instr) (BitVec.ofNat 32 l.now)) else none

/-- A line or a pseudo-command (R89). -/
inductive PseudoLine where
  | line (l : StreamLine)
  | feedFrame (t : Nat) (bytes : List Int)
  | feedBytes (t : Nat) (bytes : List Int)
  | setTargetRpm (t : Nat) (r : Rat)
  | ticks (t n d : Nat)
  | setDefaultTunings (t : Nat)
deriving DecidableEq, Repr

/-- FEED_FRAME has 22 bytes, FEED_BYTES at least one, and SET_TARGET_RPM a speed whose 64-fold is an integer (R89). -/
def PseudoLine.wf : PseudoLine → Bool
  | .feedFrame _ bytes => bytes.length == Config.FRAME_LEN
  | .feedBytes _ bytes => !bytes.isEmpty
  | .setTargetRpm _ r => (r * 64).den == 1
  | .line _ | .ticks _ _ _ | .setDefaultTunings _ => true

/-- The lines a pseudo-command expands to (R89). -/
def PseudoLine.expand : PseudoLine → List StreamLine
  | .line l => [l]
  | .feedFrame t bytes => bytes.map fun b => ⟨t, .feedByte b⟩
  | .feedBytes t bytes => bytes.map fun b => ⟨t, .feedByte b⟩
  | .setTargetRpm t r => [⟨t, .setTarget (r * 64).num⟩]
  | .ticks t n d => (List.range n).map fun i => ⟨(t + i * d) % 2 ^ 32, .tick⟩
  | .setDefaultTunings t => [⟨t, .setTunings 3000 1000 0⟩]

/-- The inputs of a command stream, none where a line is ill-formed. -/
def assembleStream (ls : List PseudoLine) : Option (List Input) :=
  if ls.all PseudoLine.wf then (ls.flatMap PseudoLine.expand).mapM StreamLine.assemble else none

end Sys2Proof.Machine
end

