-- ==== Sys2Proof/WellFormed.lean ====
section
/-! DEFINITION. Which command words are legal, read off the rows of spec/opcode_table.json, and which parameter
settings an instance may have. A term of `Instr` needs no check: its operands have the widths of their encodings. -/

namespace Sys2Proof

/-- One row of spec/opcode_table.json: a word belongs to it when its masked bits equal the pattern. -/
structure OpcodeRow where
  mnemonic : String
  pattern : CommandWord
  mask : CommandWord
deriving DecidableEq, Repr

/-- spec/opcode_table.json, row by row: the mnemonic, the row's `match` and its `mask`. -/
def opcodeTable : List OpcodeRow :=
  [ ⟨"FEED_BYTE", 0x01000000000000000000000000#104, 0xFFFFFFFF00FFFFFFFFFFFFFFFF#104⟩,
    ⟨"TICK", 0x02000000000000000000000000#104, 0xFFFFFFFFFFFFFFFFFFFFFFFFFF#104⟩,
    ⟨"ENABLE", 0x03000000000000000000000000#104, 0xFFFFFFFFFFFFFFFFFFFFFFFFFF#104⟩,
    ⟨"DISABLE", 0x04000000000000000000000000#104, 0xFFFFFFFFFFFFFFFFFFFFFFFFFF#104⟩,
    ⟨"SET_TARGET", 0x05000000000000000000000000#104, 0xFF00000000FFFFFFFFFFFFFFFF#104⟩,
    ⟨"SET_TUNINGS", 0x06000000000000000000000000#104, 0xFF000000000000000000000000#104⟩,
    ⟨"SET_PERIOD", 0x07000000000000000000000000#104, 0xFF00000000FFFFFFFFFFFFFFFF#104⟩,
    ⟨"GET_RPM", 0x08000000000000000000000000#104, 0xFFFFFFFFFFFFFFFFFFFFFFFFFF#104⟩,
    ⟨"GET_ENABLED", 0x09000000000000000000000000#104, 0xFFFFFFFFFFFFFFFFFFFFFFFFFF#104⟩,
    ⟨"GET_ROT_PERIOD", 0x0A000000000000000000000000#104, 0xFFFFFFFFFFFFFFFFFFFFFFFFFF#104⟩ ]

/-- The row of an instruction, by its mnemonic (30_encoding.md R81). -/
def Instr.mnemonic : Instr → String
  | .feedByte _ => "FEED_BYTE"
  | .tick => "TICK"
  | .enable => "ENABLE"
  | .disable => "DISABLE"
  | .setTarget _ => "SET_TARGET"
  | .setTunings _ _ _ => "SET_TUNINGS"
  | .setPeriod _ => "SET_PERIOD"
  | .getRpm => "GET_RPM"
  | .getEnabled => "GET_ENABLED"
  | .getRotPeriod => "GET_ROT_PERIOD"

/-- The word belongs to the row. -/
def OpcodeRow.matches (r : OpcodeRow) (w : CommandWord) : Bool := w &&& r.mask == r.pattern

/-- A legal command word: it belongs to a row of the table (30_encoding.md R72, R83). -/
def CommandWord.wellFormed (w : CommandWord) : Bool := opcodeTable.any (·.matches w)

/-- The parameter settings under which the registers' legal ranges hold: the default setpoint is a legal setpoint
(10_state.md R28: 1..2^31-1) and the default period is not 0 (10_state.md R30). -/
def Params.wf (p : Params) : Bool :=
  decide (0 < p.spResetQ6.toInt) && decide (p.periodResetMs ≠ 0#32)

end Sys2Proof
end

