-- ==== Sys2Proof/Safety.lean ====
section
/-! DEFINITION. What holds between commands in every state the block can be in, in the terms the claims use. -/

namespace Sys2Proof.Machine

/-- 10_state.md R23: the cursor is 0 exactly while seeking, and at most 21 between commands. -/
def AssemblerInv (s : State) : Prop :=
  (s.asm_state = .seekingStart ↔ s.asm_idx = 0#5) ∧ s.asm_idx.toNat ≤ 21

/-- The buffer is in canonical form, holds nothing from the cursor on, and starts with the start marker while a frame
is accumulated (40_frame_assembler.md R94, R96). -/
def BufferInv (s : State) : Prop :=
  s.buf.wf ∧ (∀ c ∈ s.buf, c.1 < s.asm_idx.toNat) ∧
    (s.asm_state = .accumulating → s.buf.read 0 = Config.START_MARKER)

/-- 10_state.md R28 and R30: the setpoint is in 1..2^31-1 and the period is not 0. -/
def ConfigInv (s : State) : Prop := 0 < s.sp_q6.toInt ∧ s.period_ms ≠ 0#32

/-- 10_state.md R33: the range of the stored error. -/
def ErrorInv (s : State) : Prop := -65534 ≤ s.e_prev_q6 ∧ s.e_prev_q6 ≤ 2 ^ 31 - 1

/-- 43_speed_regulator.md R148: output and level are in [0, 1], and the level is the output while the motor is
enabled and 0 while it is not. -/
def OutputInv (s : State) : Prop :=
  (0 ≤ s.pid_out ∧ s.pid_out ≤ 1) ∧ (0 ≤ s.pwm_duty ∧ s.pwm_duty ≤ 1) ∧
    s.pwm_duty = if s.motor_en then s.pid_out else 0

/-- 10_state.md R31: under `INTEGRAL_CLAMP` the integrator is in [0, 1]. -/
def IntegratorInv (s : State) : Prop :=
  s.params.antiWindup = .integralClamp → 0 ≤ s.pid_I ∧ s.pid_I ≤ 1

/-- What every step keeps, and reset has. -/
structure BlockInv (s : State) : Prop where
  params : s.params.wf = true
  assembler : AssemblerInv s
  buffer : BufferInv s
  config : ConfigInv s
  error : ErrorInv s
  output : OutputInv s
  integrator : IntegratorInv s

/-- The rational value of a finite binary64 number: 53 significant bits, exponent of the last place in -1074..971. -/
def IsBinary64 (q : Num) : Prop :=
  ∃ k t : Int, |k| < 2 ^ 53 ∧ -1074 ≤ t ∧ t ≤ 971 ∧ q = (k : Rat) * (2 : Rat) ^ t

/-- 10_state.md R45: under `NUMERICS = BINARY64` every register of type Num holds a binary64 number. -/
def Binary64Inv (s : State) : Prop :=
  s.params.numerics = .binary64 → IsBinary64 s.pid_I ∧ IsBinary64 s.pid_out ∧ IsBinary64 s.pwm_duty

/-- A safe run never stops: the block answers every input with a next state (00_scope.md R7, 60_exceptions.md R190). -/
def StepsOn (s : State) : Prop := ∃ t, step s = .next t

end Sys2Proof.Machine
end

