-- ==== Sys2Proof/Certificates/Slice0/Obligations.lean ====
section
/-! DEFINITION. The statements for the provers. Where a statement's conclusion is an equation
`exec i s = .next { s with … }`, every register, parameter and port that is not named in the update is unchanged, and
so is every byte of the frame buffer where `buf` is not named. -/

open Sys2Proof Sys2Proof.Machine

/-! ### Encoding -/

/-- Every instruction, with every operand at every value, comes back from its word (30_encoding.md R72, R81, R82). -/
def Obligations.DecodeInvertsEncode : Prop := ∀ i : Instr, decode (encode i) = .ok i

/-- A word that decodes is the word of the instruction it decodes to: no bit of a legal word is dropped (R71, R82). -/
def Obligations.EncodeInvertsDecode : Prop := ∀ (w : CommandWord) (i : Instr), decode w = .ok i → encode i = w

/-- A word decodes exactly if it belongs to a row of spec/opcode_table.json; it then belongs to one row only, that of
the instruction's mnemonic (30_encoding.md R81). -/
def Obligations.LegalWordsAreTheTableRows : Prop :=
  ∀ w : CommandWord,
    (w.wellFormed = true ↔ ∃ i, decode w = .ok i) ∧
      ∀ i, decode w = .ok i → ∃ r, opcodeTable.filter (fun r => r.matches w) = [r] ∧ r.mnemonic = i.mnemonic

/-- Words written out from the spec's encodings (30_encoding.md R71, R72, R81; 95_test_vectors.md P1, P4, V-CFG-3). -/
def Obligations.WrittenOutWordsDecode : Prop :=
  decode 0x01000000FA0000000000000000#104 = .ok (.feedByte 0xFA#8) ∧
  decode 0x02000000000000000000000000#104 = .ok .tick ∧
  decode 0x05FFFFFFFB0000000000000000#104 = .ok (.setTarget 0xFFFFFFFB#32) ∧
  decode 0x0600000BB8000003E800000000#104 = .ok (.setTunings 3000#32 1000#32 0#32) ∧
  decode 0x07000000320000000000000000#104 = .ok (.setPeriod 50#32) ∧
  decode 0x0A000000000000000000000000#104 = .ok .getRotPeriod ∧
  decode 0x0B000000000000000000000000#104 = .error (.reservedOpcode 0x0B#8) ∧
  decode 0x01000001FA0000000000000000#104 = .error (.nonzeroField 0x01#8)

/-- The word `w` has the opcode byte and the operand fields that 30_encoding.md R71, R72 and R81 give the written
command, unused fields zero; a SET_TARGET operand is read as a 32-bit two's complement (R88). -/
def EncodesCommand (c : StreamCommand) (w : CommandWord) : Prop :=
  let op := w.extractLsb' 96 8
  let a : U32 := w.extractLsb' 64 32
  let b : U32 := w.extractLsb' 32 32
  let c' : U32 := w.extractLsb' 0 32
  match c with
  | .feedByte x => op = 0x01#8 ∧ (a.toNat : Int) = x ∧ b = 0#32 ∧ c' = 0#32
  | .tick => op = 0x02#8 ∧ a = 0#32 ∧ b = 0#32 ∧ c' = 0#32
  | .enable => op = 0x03#8 ∧ a = 0#32 ∧ b = 0#32 ∧ c' = 0#32
  | .disable => op = 0x04#8 ∧ a = 0#32 ∧ b = 0#32 ∧ c' = 0#32
  | .setTarget q6 => op = 0x05#8 ∧ a.toInt = q6 ∧ b = 0#32 ∧ c' = 0#32
  | .setTunings kp ki kd =>
    op = 0x06#8 ∧ (a.toNat : Int) = kp ∧ (b.toNat : Int) = ki ∧ (c'.toNat : Int) = kd
  | .setPeriod ms => op = 0x07#8 ∧ (a.toNat : Int) = ms ∧ b = 0#32 ∧ c' = 0#32
  | .getRpm => op = 0x08#8 ∧ a = 0#32 ∧ b = 0#32 ∧ c' = 0#32
  | .getEnabled => op = 0x09#8 ∧ a = 0#32 ∧ b = 0#32 ∧ c' = 0#32
  | .getRotPeriod => op = 0x0A#8 ∧ a = 0#32 ∧ b = 0#32 ∧ c' = 0#32

/-- A well-formed line of the textual command stream assembles to its command: the clock sample is the written one, and
the word has the opcode byte and the operands of the written command, field by field, and decodes to the line's
instruction (30_encoding.md R71, R72, R81, R88). -/
def Obligations.CommandStreamLinesAssemble : Prop :=
  ∀ l : StreamLine, l.wf = true →
    ∃ (w : CommandWord) (now : U32), l.assemble = some (.command w now) ∧ now.toNat = l.now ∧
      EncodesCommand l.cmd w ∧ decode w = .ok l.cmd.instr

/-! ### Steps -/

/-- A step runs the decoded instruction: the command at the head of the host's inputs is taken, its clock sample is
NOW, its event list starts empty and its response is not yet given (45_tick_and_queries.md R170; the fields `pending`
and `now` are the model's, log 1 and log 2). -/
def Obligations.StepRunsTheDecodedCommand : Prop :=
  ∀ (s : State) (w : CommandWord) (t : U32) (rest : List Input) (i : Instr),
    s.pending = .command w t :: rest → decode w = .ok i →
      step s = exec i { s with pending := rest, now := t, response := none, events := [] }

/-- The word is illegal by its bits alone (30_encoding.md R83): a reserved opcode, or a defined opcode with a nonzero
zero field. -/
def IllegalWord (w : CommandWord) : Prop :=
  let op := w.extractLsb' 96 8
  let a : U32 := w.extractLsb' 64 32
  let b : U32 := w.extractLsb' 32 32
  let c : U32 := w.extractLsb' 0 32
  op = 0x00#8 ∨ 0x0B ≤ op.toNat ∨
    (op = 0x01#8 ∧ (a.extractLsb' 8 24 ≠ 0#24 ∨ b ≠ 0#32 ∨ c ≠ 0#32)) ∨
    (op ∈ [0x02#8, 0x03#8, 0x04#8, 0x08#8, 0x09#8, 0x0A#8] ∧ (a ≠ 0#32 ∨ b ≠ 0#32 ∨ c ≠ 0#32)) ∨
    (op ∈ [0x05#8, 0x07#8] ∧ (b ≠ 0#32 ∨ c ≠ 0#32))

/-- Every register of 10_state.md R22 to R39, and the parameters, are the same in both states. -/
def SameRegisters (s t : State) : Prop :=
  t.asm_state = s.asm_state ∧ t.asm_idx = s.asm_idx ∧ t.buf = s.buf ∧ t.rpm_q6 = s.rpm_q6 ∧
  t.rot_last_ms = s.rot_last_ms ∧ t.rot_period_ms = s.rot_period_ms ∧ t.sp_q6 = s.sp_q6 ∧ t.kp_u = s.kp_u ∧
  t.ki_u = s.ki_u ∧ t.kd_u = s.kd_u ∧ t.period_ms = s.period_ms ∧ t.pid_I = s.pid_I ∧ t.y_prev_q6 = s.y_prev_q6 ∧
  t.e_prev_q6 = s.e_prev_q6 ∧ t.pid_out = s.pid_out ∧ t.pid_last_ms = s.pid_last_ms ∧ t.motor_en = s.motor_en ∧
  t.pwm_duty = s.pwm_duty ∧ t.wd_count = s.wd_count ∧ t.wd_last_ms = s.wd_last_ms ∧ t.params = s.params

/-- An illegal word is answered `(ILLEGAL, 0)` with no state change and no event (45_tick_and_queries.md R177; which
words are illegal is R83's). -/
def Obligations.IllegalWordsAreAnsweredWithNoEffect : Prop :=
  ∀ (s : State) (w : CommandWord) (now : U32) (rest : List Input),
    s.pending = .command w now :: rest → IllegalWord w →
      ∃ t, step s = .next t ∧ t.response = some ⟨.illegal, 0#32⟩ ∧ t.events = [] ∧ SameRegisters s t

/-- Nothing is presented: the block holds its state (60_exceptions.md R209). -/
def Obligations.NothingPresentedNothingChanges : Prop := ∀ s : State, s.pending = [] → step s = .next s

/-- The registers hold the reset table of 10_state.md R42 for the parameters `p`. -/
def HasResetRegisters (p : Params) (t : State) : Prop :=
  t.asm_state = .seekingStart ∧ t.asm_idx = 0#5 ∧ (∀ a, t.buf.read a = 0#8) ∧ t.rpm_q6 = 0#16 ∧
  t.rot_last_ms = 0#32 ∧ t.rot_period_ms = 0#32 ∧ t.sp_q6 = p.spResetQ6 ∧ t.kp_u = p.kpResetU ∧
  t.ki_u = p.kiResetU ∧ t.kd_u = p.kdResetU ∧ t.period_ms = p.periodResetMs ∧ t.pid_I = 0 ∧ t.y_prev_q6 = 0#16 ∧
  t.e_prev_q6 = 0 ∧ t.pid_out = 0 ∧ t.pid_last_ms = 0#32 ∧ t.motor_en = false ∧ t.pwm_duty = 0 ∧
  t.wd_count = 0#16 ∧ t.wd_last_ms = 0#32

/-- Reset, asserted between two commands, sets every register to its reset value, whatever the state was; the fault
level is then 0 (70_reset_and_hazards.md R220), no event is emitted and no response given (R221). -/
def Obligations.ResetSetsEveryRegister : Prop :=
  ∀ (s : State) (rest : List Input), s.pending = .reset :: rest →
    ∃ t, step s = .next t ∧ HasResetRegisters s.params t ∧ t.params = s.params ∧ wdFault t = false ∧
      t.response = none ∧ t.events = []

/-- The model's own choice (log 6): reset keeps the host's further inputs and the last clock sample. -/
def Obligations.ResetKeepsTheHostsInputs : Prop :=
  ∀ (s : State) (rest : List Input), s.pending = .reset :: rest →
    ∃ t, step s = .next t ∧ t.pending = rest ∧ t.now = s.now

/-- The state after reset with the values of 00_scope.md R9 holds the table of 10_state.md R42, number by number. -/
def Obligations.ResetValuesAreTheTable : Prop :=
  HasResetRegisters State.reset.params State.reset ∧ State.reset.sp_q6 = 19200#32 ∧ State.reset.kp_u = 3000#32 ∧
    State.reset.ki_u = 1000#32 ∧ State.reset.kd_u = 0#32 ∧ State.reset.period_ms = 20#32 ∧
    State.reset.buf = [] ∧ State.reset.response = none ∧ State.reset.events = []

/-- The model's own convention (log 7, log 8): a word of the opcode table's numbering, presented, is what the very next
step runs. -/
def Obligations.PresentedTableWordRunsNext : Prop :=
  ∀ (s : State) (nbits w : Nat) (i : Instr), decodeTableWord nbits w = some i →
    step (s.withFetchWord nbits w) = exec i { s with response := none, events := [] }

/-! ### FEED_BYTE: the assembler -/

/-- While seeking, a byte other than 0xFA is discarded with no state change; 0xFA is stored at offset 0, the cursor
becomes 1 and the assembler accumulates (40_frame_assembler.md R91, response R97). -/
def Obligations.SeekingWaitsForTheStartMarker : Prop :=
  ∀ (b : Byte) (s : State), s.asm_state = .seekingStart →
    (b ≠ 0xFA#8 → exec (.feedByte b) s = .next { s with response := some ⟨.ok, 0#32⟩ }) ∧
    (b = 0xFA#8 → exec (.feedByte b) s =
      .next { s with
        buf := s.buf.write 0 0xFA#8
        asm_idx := 1#5
        asm_state := .accumulating
        response := some ⟨.ok, 0#32⟩ })

/-- While accumulating, a byte before the last, 0xFA among them, is stored at the cursor, which moves on by one
(40_frame_assembler.md R92, R95, response R97). -/
def Obligations.AccumulatingStoresAtTheCursor : Prop :=
  ∀ (b : Byte) (s : State), s.asm_state = .accumulating → s.asm_idx.toNat < 21 →
    exec (.feedByte b) s =
      .next { s with
        buf := s.buf.write s.asm_idx.toNat b
        asm_idx := s.asm_idx + 1#5
        response := some ⟨.ok, 0#32⟩ }

/-- Where FEED_BYTE stores its byte for good: at offset 0 on the start marker, at the cursor before the last byte;
nowhere when the byte is discarded or the frame completes (40_frame_assembler.md R91, R92, R94). -/
def storedOffset (b : Byte) (s : State) : Option Nat :=
  match s.asm_state with
  | .seekingStart => if b = 0xFA#8 then some 0 else none
  | .accumulating => if s.asm_idx.toNat < 21 then some s.asm_idx.toNat else none

/-- The buffer after FEED_BYTE, byte by byte: the stored byte at its offset and every other byte as before; all bytes
as before where the byte is discarded; all bytes 0x00 where the frame completes (20_memory.md R50, R57). -/
def Obligations.FeedByteWritesOneBufferByte : Prop :=
  ∀ (b : Byte) (s t : State), s.buf.wf → exec (.feedByte b) s = .next t →
    (∀ a, storedOffset b s = some a → ∀ x, t.buf.read x = if x = a then b else s.buf.read x) ∧
    (s.asm_state = .seekingStart → b ≠ 0xFA#8 → ∀ x, t.buf.read x = s.buf.read x) ∧
    (s.asm_state = .accumulating → s.asm_idx = 21#5 → ∀ x, t.buf.read x = 0#8)

/-- The one stop of the model: accumulating with a cursor at an offset that does not exist (20_memory.md R50; log 9). -/
def Obligations.CursorOutsideTheBufferStops : Prop :=
  ∀ (b : Byte) (s : State), s.asm_state = .accumulating → 22 ≤ s.asm_idx.toNat →
    exec (.feedByte b) s = .fault (.bufferOffset s.asm_idx.toNat)

/-! ### FEED_BYTE: the validator -/

/-- The validator's sum: word k of the first twenty bytes weighs 2^(9-k) (41_frame_validator.md R100, R101). -/
def weightedSum (m : Memory) : Nat :=
  ((List.range 10).map fun k => ((m.read (2 * k)).toNat + 256 * (m.read (2 * k + 1)).toNat) * 2 ^ (9 - k)).sum

/-- The frame is valid exactly if the folded and reduced sum is the checksum field, byte 20 low and byte 21 high
(41_frame_validator.md R100, R101, R102). -/
def Obligations.ValidatorIsTheWeightedChecksum : Prop :=
  ∀ m : Memory,
    checksumAcc m = weightedSum m ∧
      (validate m = true ↔
        (weightedSum m % 32768 + weightedSum m / 32768) % 32768 = (m.read 20).toNat + 256 * (m.read 21).toNat)

/-- The widths of the validator's sums, and that the largest accumulator value occurs (41_frame_validator.md R103). -/
def Obligations.ChecksumSumsStayWithinTheirWidths : Prop :=
  (∀ m : Memory, checksumAcc m ≤ 67042305 ∧ checksumAcc m < 2 ^ 27 ∧ checksumAcc m >>> 15 ≤ 0x7FD ∧
    (checksumAcc m &&& 0x7FFF) + (checksumAcc m >>> 15) ≤ 0x87FC) ∧
  ∃ m : Memory, m.wf ∧ checksumAcc m = 67042305

/-- A frame whose last byte has bit 7 set never validates (30_encoding.md R69, 41_frame_validator.md R104). -/
def Obligations.TopChecksumBitNeverValidates : Prop :=
  ∀ m : Memory, (m.read 21).getLsbD 7 = true → validate m = false

/-! ### FEED_BYTE: the decoder -/

/-- A frame is cleared away: what the assembler leaves after a completed frame (40_frame_assembler.md R94). -/
def afterFrame (value : U32) (es : List Event) (s : State) : State :=
  { s with
    buf := []
    asm_idx := 0#5
    asm_state := .seekingStart
    response := some ⟨.ok, value⟩
    events := s.events ++ es }

/-- The failure notification with its cause (30_encoding.md R85). -/
def rejection (cause : BitVec 2) : List Event := [.rawFrame ⟨false, cause, 0#16, 0#5, Vector.replicate 22 0#8⟩]

/-- A completed frame whose checksum does not match: one failure event of cause 1, and no state other than the
assembler's changes (60_exceptions.md R191, 42_frame_decoder.md R120, R122). -/
def Obligations.ChecksumFailureChangesOnlyTheAssembler : Prop :=
  ∀ (b : Byte) (s : State), s.asm_state = .accumulating → s.asm_idx = 21#5 →
    validate (s.buf.write 21 b) = false →
      exec (.feedByte b) s = .next (afterFrame 1#32 (rejection 1#2) s)

/-- A frame that passes the checksum with an index byte outside 0xA0..0xF9: under REJECT it is rejected as a checksum
failure is, with cause 2; under ACCEPT it is decoded (42_frame_decoder.md R111). -/
def Obligations.IndexOutOfRangeFollowsThePolicy : Prop :=
  ∀ (b : Byte) (s : State), s.asm_state = .accumulating → s.asm_idx = 21#5 →
    validate (s.buf.write 21 b) = true →
    ((s.buf.write 21 b).read 1).toNat < 0xA0 ∨ 0xF9 < ((s.buf.write 21 b).read 1).toNat →
      (s.params.idxPolicy = .reject → exec (.feedByte b) s = .next (afterFrame 1#32 (rejection 2#2) s)) ∧
      (s.params.idxPolicy = .accept → ∃ t, exec (.feedByte b) s = .next t ∧ t.response = some ⟨.ok, 3#32⟩ ∧
        t.events = s.events ++ acceptedEvents (s.buf.write 21 b))

/-- The first angle of the group, 4 times the index byte less 160, as an integer (42_frame_decoder.md R112). -/
def groupAngle (m : Memory) : Int := 4 * (((m.read 1).toNat : Int) - 160)

/-- The sample of quad `i` from the four bytes of the quad (42_frame_decoder.md R115 to R118): the error code is the
top two bits of the second byte; distance and quality are zero where it is not zero. -/
def sampleOfBytes (m : Memory) (i : Nat) : Sample :=
  let low := m.read (4 + 4 * i)
  let high := m.read (4 + 4 * i + 1)
  let err : BitVec 2 := high.extractLsb' 6 2
  { angle := BitVec.ofInt 16 (groupAngle m + i)
    dist := if err = 0#2 then (high.extractLsb' 0 6 ++ low : BitVec (6 + 8)) else 0#14
    quality := if err = 0#2 then (m.read (4 + 4 * i + 3) ++ m.read (4 + 4 * i + 2) : BitVec (8 + 8)) else 0#16
    err := err }

/-- An accepted frame: the speed is bytes 3 and 2, the rotation registers are written exactly if the index byte is
0xA0, and the events are RAW_FRAME with the 22 bytes and then the samples of quads 0 to 3; the regulator and the
watchdog are untouched (42_frame_decoder.md R113 to R117, R119). -/
def Obligations.AcceptedFrameIsDecoded : Prop :=
  ∀ (b : Byte) (s : State) (m : Memory), s.asm_state = .accumulating → s.asm_idx = 21#5 →
    m = s.buf.write 21 b → validate m = true →
    s.params.idxPolicy = .accept ∨ (0xA0 ≤ (m.read 1).toNat ∧ (m.read 1).toNat ≤ 0xF9) →
      exec (.feedByte b) s =
        .next { afterFrame 3#32
            [.rawFrame ⟨true, 0#2, BitVec.ofInt 16 (groupAngle m), 22#5, Vector.ofFn fun j => m.read j.val⟩,
              .sample (sampleOfBytes m 0), .sample (sampleOfBytes m 1), .sample (sampleOfBytes m 2),
              .sample (sampleOfBytes m 3)] s with
          rpm_q6 := (m.read 3 ++ m.read 2 : BitVec (8 + 8))
          rot_period_ms := if m.read 1 = 0xA0#8 then s.now - s.rot_last_ms else s.rot_period_ms
          rot_last_ms := if m.read 1 = 0xA0#8 then s.now else s.rot_last_ms }

/-- The s16 angle field holds the exact angle for every index byte, increasing by 1 over the four quads; for an index
in range it is in 0..359 (42_frame_decoder.md R112, R118, R121). -/
def Obligations.SampleAnglesAreExact : Prop :=
  ∀ (m : Memory) (i : Nat), i < 4 →
    (quadSample m i).angle.toInt = groupAngle m + i ∧
      (0xA0 ≤ (m.read 1).toNat → (m.read 1).toNat ≤ 0xF9 →
        0 ≤ (quadSample m i).angle.toInt ∧ (quadSample m i).angle.toInt ≤ 359)

/-- Decoding is a function of the 22 bytes, NOW and rot_last_ms alone: two states that agree on these (and on the
build-time index policy) answer, emit and decode alike, whatever the rest of them holds (42_frame_decoder.md R122). -/
def Obligations.DecodingDependsOnTheFrameAlone : Prop :=
  ∀ (b : Byte) (s s' : State),
    s.asm_state = .accumulating → s.asm_idx = 21#5 → s'.asm_state = .accumulating → s'.asm_idx = 21#5 →
    s.buf.wf → s'.buf.wf → (∀ a, a < 21 → s.buf.read a = s'.buf.read a) →
    s.now = s'.now → s.rot_last_ms = s'.rot_last_ms → s.params.idxPolicy = s'.params.idxPolicy →
      ∃ t t' es, exec (.feedByte b) s = .next t ∧ exec (.feedByte b) s' = .next t' ∧
        t.response = t'.response ∧ t.events = s.events ++ es ∧ t'.events = s'.events ++ es ∧
        t.rot_last_ms = t'.rot_last_ms ∧
        (t.response = some ⟨.ok, 3#32⟩ → t.rpm_q6 = t'.rpm_q6) ∧
        (t.response = some ⟨.ok, 3#32⟩ → (s.buf.read 1 = 0xA0#8) → t.rot_period_ms = t'.rot_period_ms)

/-- The registers the frame decoder writes (10_state.md R25, R26, R27) are the same in both states. -/
def SameDecoderRegisters (s t : State) : Prop :=
  t.rpm_q6 = s.rpm_q6 ∧ t.rot_last_ms = s.rot_last_ms ∧ t.rot_period_ms = s.rot_period_ms

/-- What one validate-and-decode run on the full buffer `m` with the clock sample `now` leaves in the event list and in
the decoder's registers (42_frame_decoder.md R110, R113, R114, R122): a checksum failure, an index failure, or an
accepted frame. -/
def OneDecoderRun (m : Memory) (now : U32) (s t : State) : Prop :=
  (validate m = false → t.events = rejection 1#2 ∧ SameDecoderRegisters s t) ∧
  (validate m = true → s.params.idxPolicy = .reject → (m.read 1).toNat < 0xA0 ∨ 0xF9 < (m.read 1).toNat →
    t.events = rejection 2#2 ∧ SameDecoderRegisters s t) ∧
  (validate m = true → s.params.idxPolicy = .accept ∨ (0xA0 ≤ (m.read 1).toNat ∧ (m.read 1).toNat ≤ 0xF9) →
    t.events = acceptedEvents m ∧ t.rpm_q6 = (m.read 3 ++ m.read 2 : BitVec (8 + 8)) ∧
      t.rot_last_ms = (if m.read 1 = 0xA0#8 then now else s.rot_last_ms) ∧
      t.rot_period_ms = (if m.read 1 = 0xA0#8 then now - s.rot_last_ms else s.rot_period_ms))

/-- A frame fed byte by byte, from the start marker on, with one clock sample for each byte: none of the first 21
commands runs the pipeline (each leaves an empty event list, the decoder's registers as before and the assembler
accumulating at the next cursor), and the 22nd runs it once, on exactly those 22 bytes and with its own clock sample;
the assembler then seeks again (40_frame_assembler.md R93, R94, R96, 42_frame_decoder.md R110). -/
def Obligations.TwentyTwoBytesMakeOneFrame : Prop :=
  ∀ (frame : List (Byte × U32)) (rest : List Input) (s : State) (m : Memory) (last : Byte × U32),
    s.asm_state = .seekingStart → s.asm_idx = 0#5 → s.buf = [] →
    frame.length = 22 → frame[21]? = some last → m.wf →
    (∀ (j : Nat) (h : j < frame.length), m.read j = frame[j].1) → m.read 0 = 0xFA#8 →
    s.pending = frame.map (fun p => Input.command (encode (.feedByte p.1)) p.2) ++ rest →
      (∀ k, 1 ≤ k → k < 22 → ∃ u, Sys2Proof.core.run k s = .next u ∧ u.asm_state = .accumulating ∧
        u.asm_idx.toNat = k ∧ u.events = [] ∧ SameDecoderRegisters s u) ∧
      ∃ t, Sys2Proof.core.run 22 s = .next t ∧ t.asm_state = .seekingStart ∧ t.asm_idx = 0#5 ∧ t.buf = [] ∧
        t.pending = rest ∧ OneDecoderRun m last.2 s t

/-- From a seeking assembler, a stream of FEED_BYTE commands without the byte 0xFA completes no frame and emits
nothing, however long it runs (40_frame_assembler.md R96). -/
def Obligations.StreamWithoutMarkerEmitsNothing : Prop :=
  ∀ (bytes : List (Byte × U32)) (s : State), s.asm_state = .seekingStart → s.events = [] →
    (∀ p ∈ bytes, p.1 ≠ 0xFA#8) →
    s.pending = bytes.map (fun p => Input.command (encode (.feedByte p.1)) p.2) →
      ∀ k, ∃ t, Sys2Proof.core.run k s = .next t ∧ t.asm_state = .seekingStart ∧ t.buf = s.buf ∧
        t.rpm_q6 = s.rpm_q6 ∧ t.events = []

/-! ### Configuration, ENABLE, DISABLE and the queries -/

/-- SET_TARGET (43_speed_regulator.md R142). -/
def Obligations.SetTargetStoresOrSubstitutes : Prop :=
  ∀ (a : U32) (s : State),
    (a.toInt ≤ 0 → exec (.setTarget a) s =
      .next { s with sp_q6 := s.params.spResetQ6, response := some ⟨.ok, s.params.spResetQ6⟩ }) ∧
    (0 < a.toInt → exec (.setTarget a) s = .next { s with sp_q6 := a, response := some ⟨.ok, a⟩ })

/-- SET_TUNINGS (43_speed_regulator.md R143). -/
def Obligations.SetTuningsStoresTheGains : Prop :=
  ∀ (kp ki kd : U32) (s : State),
    exec (.setTunings kp ki kd) s =
      .next { s with kp_u := kp, ki_u := ki, kd_u := kd, response := some ⟨.ok, 0#32⟩ }

/-- SET_PERIOD (43_speed_regulator.md R144). -/
def Obligations.SetPeriodStoresOrRejectsZero : Prop :=
  ∀ (ms : U32) (s : State),
    (ms = 0#32 → exec (.setPeriod ms) s = .next { s with response := some ⟨.rejected, 0#32⟩ }) ∧
    (ms ≠ 0#32 → exec (.setPeriod ms) s = .next { s with period_ms := ms, response := some ⟨.ok, 0#32⟩ })

/-- ENABLE, in every state, whether the motor is enabled already or not (43_speed_regulator.md R145). -/
def Obligations.EnableResumesTheOutput : Prop :=
  ∀ s : State,
    exec .enable s =
      .next { s with
        motor_en := true
        wd_count := 0#16
        pwm_duty := s.pid_out
        events := s.events ++ [.pwm s.pid_out]
        response := some ⟨.ok, 0#32⟩ }

/-- DISABLE, in every state (43_speed_regulator.md R146). -/
def Obligations.DisableForcesDutyZero : Prop :=
  ∀ s : State,
    exec .disable s =
      .next { s with
        motor_en := false
        pwm_duty := 0
        events := s.events ++ [.pwm 0]
        response := some ⟨.ok, 0#32⟩ }

/-- The three queries answer their register and change nothing (45_tick_and_queries.md R174, R175, R176). -/
def Obligations.QueriesAnswerAndChangeNothing : Prop :=
  ∀ s : State,
    exec .getRpm s = .next { s with response := some ⟨.ok, s.rpm_q6.setWidth 32⟩ } ∧
    exec .getEnabled s = .next { s with response := some ⟨.ok, if s.motor_en then 1#32 else 0#32⟩ } ∧
    exec .getRotPeriod s = .next { s with response := some ⟨.ok, s.rot_period_ms⟩ }

/-! ### TICK -/

/-- TICK completes in every state, and its response's three bits say what it did (45_tick_and_queries.md R173). -/
def Obligations.TickReportsFaultCheckAndCompute : Prop :=
  ∀ s : State, ∃ t v, exec .tick s = .next t ∧ t.response = some ⟨.ok, v⟩ ∧ v.toNat < 8 ∧
    (v.getLsbD 0 = true ↔ t.params.wdThreshold < t.wd_count.toNat) ∧
    (v.getLsbD 1 = true ↔ s.params.wdIntervalMs ≤ (s.now - s.wd_last_ms).toNat) ∧
    (v.getLsbD 2 = true ↔ s.motor_en = true ∧ s.period_ms.toNat ≤ (s.now - s.pid_last_ms).toNat)

/-- TICK's frame: the assembler, the buffer, the decoder's registers, the configuration, the motor enable, the
parameters and the ports' inputs are unchanged (43_speed_regulator.md R132, 44_motor_watchdog.md R161). -/
def Obligations.TickLeavesTheRestAlone : Prop :=
  ∀ s : State, ∃ t, exec .tick s = .next t ∧
    t.asm_state = s.asm_state ∧ t.asm_idx = s.asm_idx ∧ t.buf = s.buf ∧ t.rpm_q6 = s.rpm_q6 ∧
    t.rot_last_ms = s.rot_last_ms ∧ t.rot_period_ms = s.rot_period_ms ∧ t.sp_q6 = s.sp_q6 ∧ t.kp_u = s.kp_u ∧
    t.ki_u = s.ki_u ∧ t.kd_u = s.kd_u ∧ t.period_ms = s.period_ms ∧ t.motor_en = s.motor_en ∧
    t.params = s.params ∧ t.pending = s.pending ∧ t.now = s.now

/-- What an effective compute leaves, given its integral term `i` and its output `u`: the registers of
43_speed_regulator.md R133 and R140, and a PWM event exactly where the output differs from the level (R141). -/
def ComputedTo (s t : State) (i u : Rat) : Prop :=
  t.pid_last_ms = s.now ∧ t.pid_I = i ∧ t.y_prev_q6 = s.rpm_q6 ∧
    t.e_prev_q6 = (s.sp_q6.toNat : Int) - (s.rpm_q6.toNat : Int) ∧ t.pid_out = u ∧ t.pwm_duty = u ∧
    t.events = s.events ++ (if u = s.pwm_duty then [] else [.pwm u])

/-- A compute happens exactly if the motor is enabled and the sample period has passed, under every setting of the
parameters: it writes its integral term and its output back and drives the output; otherwise the regulator and the
level stay and TICK emits nothing (43_speed_regulator.md R133, R134, R140, R141). -/
def Obligations.ComputeHappensExactlyWhenDue : Prop :=
  ∀ s : State,
    (s.motor_en = true ∧ s.period_ms.toNat ≤ (s.now - s.pid_last_ms).toNat →
      ∃ t, exec .tick s = .next t ∧ ComputedTo s t (integralTerm s) (pidOutput s)) ∧
    (s.motor_en = false ∨ (s.now - s.pid_last_ms).toNat < s.period_ms.toNat →
      ∃ t, exec .tick s = .next t ∧ t.pid_last_ms = s.pid_last_ms ∧ t.pid_I = s.pid_I ∧ t.y_prev_q6 = s.y_prev_q6 ∧
        t.e_prev_q6 = s.e_prev_q6 ∧ t.pid_out = s.pid_out ∧ t.pwm_duty = s.pwm_duty ∧ t.events = s.events)

/-- The PID step in exact arithmetic, under every setting of the other parameters: error, scaled gains, integral,
derivative, output (43_speed_regulator.md R135 to R139). -/
def Obligations.ExactComputeIsThePidFormula : Prop :=
  ∀ s : State, s.params.numerics = .exact → s.motor_en = true → s.period_ms ≠ 0#32 →
    s.period_ms.toNat ≤ (s.now - s.pid_last_ms).toNat →
      let y : Rat := (s.rpm_q6.toNat : Rat) / 64
      let e : Rat := (s.sp_q6.toNat : Rat) / 64 - y
      let ts : Rat := (s.period_ms.toNat : Rat) / 1000
      let kp : Rat := (s.kp_u.toNat : Rat) / 10 ^ 6
      let ki : Rat := (s.ki_u.toNat : Rat) / 10 ^ 6 * (if s.params.gainScaling = .perSecond then ts else 1)
      let kd : Rat := (s.kd_u.toNat : Rat) / 10 ^ 6 / (if s.params.gainScaling = .perSecond then ts else 1)
      let i : Rat := if s.params.antiWindup = .integralClamp then min 1 (max 0 (s.pid_I + ki * e)) else s.pid_I + ki * e
      let d : Rat := if s.params.derivOn = .measurement then -(kd * (y - (s.y_prev_q6.toNat : Rat) / 64))
        else kd * (e - (s.e_prev_q6 : Rat) / 64)
      ∃ t, exec .tick s = .next t ∧ ComputedTo s t i (min 1 (max 0 (kp * e + i + d)))

/-- The PID step in binary64: one rounding after every operator, in the written order, under every setting of the other
parameters (43_speed_regulator.md R131). -/
def Obligations.Binary64ComputeRoundsEveryOperator : Prop :=
  ∀ s : State, s.params.numerics = .binary64 → s.motor_en = true → s.period_ms ≠ 0#32 →
    s.period_ms.toNat ≤ (s.now - s.pid_last_ms).toNat →
      let fl : Rat → Rat := roundBinary64
      let eq6 : Int := (s.sp_q6.toNat : Int) - (s.rpm_q6.toNat : Int)
      let e : Rat := fl ((eq6 : Rat) / 64)
      let ts : Rat := fl ((s.period_ms.toNat : Rat) / 1000)
      let kp : Rat := fl ((s.kp_u.toNat : Rat) / 1000000)
      let ki : Rat := fl ((s.ki_u.toNat : Rat) / 1000000)
      let kd : Rat := fl ((s.kd_u.toNat : Rat) / 1000000)
      let kis : Rat := if s.params.gainScaling = .perSecond then fl (ki * ts) else ki
      let kds : Rat := if s.params.gainScaling = .perSecond then fl (kd / ts) else kd
      let i0 : Rat := fl (s.pid_I + fl (kis * e))
      let i : Rat := if s.params.antiWindup = .integralClamp then min 1 (max 0 i0) else i0
      let dy : Int := (s.rpm_q6.toNat : Int) - (s.y_prev_q6.toNat : Int)
      let d : Rat := if s.params.derivOn = .measurement then fl (-(fl (kds * fl ((dy : Rat) / 64))))
        else fl (kds * fl (((eq6 - s.e_prev_q6 : Int) : Rat) / 64))
      ∃ t, exec .tick s = .next t ∧ ComputedTo s t i (min 1 (max 0 (fl (fl (fl (kp * e) + i) + d))))

/-- `roundBinary64` answers a binary64 number, and a nearest one: its answer has at most 53 bits and an exponent not
below -1074, and no number of that form is nearer to the exact result (43_speed_regulator.md R131). From the magnitude
`(2 ^ 54 - 1) * 2 ^ 970` on, where IEEE 754 answers an infinity, the model's answer has no largest exponent, by its own
choice (log 11); below it, the answer is a finite binary64 number. -/
def Obligations.RoundingIsToNearest : Prop :=
  ∀ q : Rat,
    (∃ m u : Int, roundBinary64 q = (m : Rat) * (2 : Rat) ^ u ∧ |m| < 2 ^ 53 ∧ -1074 ≤ u) ∧
    (|q| < (2 ^ 54 - 1) * (2 : Rat) ^ (970 : Int) → IsBinary64 (roundBinary64 q)) ∧
    ∀ k t : Int, |k| < 2 ^ 53 → -1074 ≤ t → |roundBinary64 q - q| ≤ |(k : Rat) * (2 : Rat) ^ t - q|

/-- Where the exact result lies halfway between two neighbouring multiples of its last place `2 ^ t`,
`roundBinary64` answers the one with the even significand (43_speed_regulator.md R131: ties to even). From the magnitude
`(2 ^ 54 - 1) * 2 ^ 970` on, itself a tie at `t = 971`, IEEE 754 answers an infinity, and what the statement says there
is the model's own choice of no largest exponent (log 11). -/
def Obligations.RoundingTiesGoToEven : Prop :=
  ∀ (q : Rat) (k t : Int), -1074 ≤ t → t = -1074 ∨ (2 : Rat) ^ (t + 52) ≤ |q| → |q| < (2 : Rat) ^ (t + 53) →
    |(k : Rat) * (2 : Rat) ^ t - q| = (2 : Rat) ^ t / 2 →
      ∃ j : Int, roundBinary64 q = ((2 * j : Int) : Rat) * (2 : Rat) ^ t

/-- An effective watchdog check: the counter counts one more, saturating, exactly if the motor is enabled and the
speed lies outside the closed band [0.8, 1.1] of the setpoint, and is 0 otherwise (44_motor_watchdog.md R160, R162,
R163). -/
def Obligations.EffectiveCheckCountsViolations : Prop :=
  ∀ s : State, s.params.wdIntervalMs ≤ (s.now - s.wd_last_ms).toNat →
    ∃ t, exec .tick s = .next t ∧ t.wd_last_ms = s.now ∧
      t.wd_count.toNat =
        if s.motor_en = true ∧ ((s.rpm_q6.toNat : Rat) < 8 / 10 * (s.sp_q6.toNat : Rat) ∨
            11 / 10 * (s.sp_q6.toNat : Rat) < (s.rpm_q6.toNat : Rat)) then
          min (s.wd_count.toNat + 1) 65535
        else 0

/-- Between effective checks a TICK leaves the counter, its timestamp and so the fault unchanged and reports no new
information, and of all commands only ENABLE changes the counter (44_motor_watchdog.md R166). -/
def Obligations.NoCheckBeforeTheInterval : Prop :=
  ∀ s : State, (s.now - s.wd_last_ms).toNat < s.params.wdIntervalMs →
    (∃ t v, exec .tick s = .next t ∧ t.wd_count = s.wd_count ∧ t.wd_last_ms = s.wd_last_ms ∧ wdFault t = wdFault s ∧
      t.response = some ⟨.ok, v⟩ ∧ v.getLsbD 1 = false) ∧
    ∀ (i : Instr) (t : State), i ≠ .enable → exec i s = .next t → t.wd_count = s.wd_count

/-- The watchdog is advisory: whatever its two registers hold, and so whether its gate opens or not, TICK leaves the
motor enable as it was and gives the same state but for these two registers and the response; in particular the same
level and the same events (44_motor_watchdog.md R165). -/
def Obligations.WatchdogNeverTouchesTheMotor : Prop :=
  ∀ (s : State) (count : U16) (last : U32),
    ∃ t c l r, exec .tick s = .next t ∧ t.motor_en = s.motor_en ∧
      exec .tick { s with wd_count := count, wd_last_ms := last } =
        .next { t with wd_count := c, wd_last_ms := l, response := r }

/-- A second TICK with the same NOW opens neither gate: it changes nothing but the response
(45_tick_and_queries.md R171). -/
def Obligations.RepeatedTickDoesNothing : Prop :=
  ∀ s t : State, s.period_ms ≠ 0#32 → 0 < s.params.wdIntervalMs → exec .tick s = .next t →
    ∃ v : U32, v.toNat ≤ 1 ∧ exec .tick t = .next { t with response := some ⟨.ok, v⟩ }

/-- Every timestamp of the tick later by `d`, modulo 2^32. -/
def laterBy (d : U32) (s : State) : State :=
  { s with now := s.now + d, pid_last_ms := s.pid_last_ms + d, wd_last_ms := s.wd_last_ms + d }

/-- A clock that reads `d` more throughout, wrapping, changes no result of a TICK: only differences modulo 2^32 count
(00_scope.md R14, 70_reset_and_hazards.md R244). -/
def Obligations.TickSeesOnlyClockDifferences : Prop :=
  ∀ (s : State) (d : U32), ∃ t, exec .tick s = .next t ∧ exec .tick (laterBy d s) = .next (laterBy d t)

/-- Clock samples each at least `d` after the one before, the first after `last`, modulo 2^32. -/
def SpacedBy (d : Nat) : U32 → List U32 → Prop
  | _, [] => True
  | last, t :: ts => d ≤ (t - last).toNat ∧ SpacedBy d t ts

/-- Consecutive violating checks: with the motor enabled and a constant speed out of band, TICKs spaced by at least the
watchdog interval count one violation each, so the fault shows exactly from the check after the threshold on, the 11th
with the default of 10 (44_motor_watchdog.md R163, R164). -/
def Obligations.FaultShowsAfterThresholdViolations : Prop :=
  ∀ (nows : List U32) (s : State), s.motor_en = true → outOfBand s.rpm_q6 s.sp_q6 = true → s.wd_count = 0#16 →
    SpacedBy s.params.wdIntervalMs s.wd_last_ms nows →
    s.pending = nows.map (fun n => Input.command (encode .tick) n) →
      ∃ t, Sys2Proof.core.run nows.length s = .next t ∧ t.wd_count.toNat = min nows.length 65535 ∧
        (wdFault t = true ↔ s.params.wdThreshold < min nows.length 65535) ∧ t.motor_en = true

/-! ### Whole-machine rules -/

/-- Each register is written only by the commands its own rule names (10_state.md R22 to R39, R43). -/
def Obligations.RegistersAreWrittenOnlyByTheirCommands : Prop :=
  ∀ (i : Instr) (s t : State), exec i s = .next t →
    ((∀ b, i ≠ .feedByte b) →
      t.asm_state = s.asm_state ∧ t.asm_idx = s.asm_idx ∧ t.buf = s.buf ∧ t.rpm_q6 = s.rpm_q6 ∧
      t.rot_last_ms = s.rot_last_ms ∧ t.rot_period_ms = s.rot_period_ms) ∧
    ((∀ a, i ≠ .setTarget a) → t.sp_q6 = s.sp_q6) ∧
    ((∀ kp ki kd, i ≠ .setTunings kp ki kd) → t.kp_u = s.kp_u ∧ t.ki_u = s.ki_u ∧ t.kd_u = s.kd_u) ∧
    ((∀ ms, i ≠ .setPeriod ms) → t.period_ms = s.period_ms) ∧
    (i ≠ .tick → t.pid_I = s.pid_I ∧ t.y_prev_q6 = s.y_prev_q6 ∧ t.e_prev_q6 = s.e_prev_q6 ∧
      t.pid_out = s.pid_out ∧ t.pid_last_ms = s.pid_last_ms ∧ t.wd_last_ms = s.wd_last_ms) ∧
    (i ≠ .enable → i ≠ .disable → t.motor_en = s.motor_en) ∧
    (i ≠ .tick → i ≠ .enable → t.wd_count = s.wd_count) ∧
    (i ≠ .tick → i ≠ .enable → i ≠ .disable → t.pwm_duty = s.pwm_duty) ∧
    t.params = s.params ∧ t.pending = s.pending ∧ t.now = s.now

/-- The events one command appends, by command and, for FEED_BYTE, by its response: no frame completed, a frame
rejected, a frame accepted (60_exceptions.md R200, 40_frame_assembler.md R97). -/
def EventsOf : Instr → Option Response → List Event → Prop
  | .feedByte _, r, es =>
    (r = some ⟨.ok, 0#32⟩ ∧ es = []) ∨
      (r = some ⟨.ok, 1#32⟩ ∧ ∃ f : RawFrame, f.ok = false ∧ es = [.rawFrame f]) ∨
      (r = some ⟨.ok, 3#32⟩ ∧ ∃ (f : RawFrame) (x0 x1 x2 x3 : Sample), f.ok = true ∧ x0.angle = f.angle ∧
        x1.angle = f.angle + 1#16 ∧ x2.angle = f.angle + 2#16 ∧ x3.angle = f.angle + 3#16 ∧
        es = [.rawFrame f, .sample x0, .sample x1, .sample x2, .sample x3])
  | .tick, _, es => es = [] ∨ ∃ u, es = [.pwm u]
  | .enable, _, es => ∃ u, es = [.pwm u]
  | .disable, _, es => ∃ u, es = [.pwm u]
  | .setTarget _, _, es => es = []
  | .setTunings _ _ _, _, es => es = []
  | .setPeriod _, _, es => es = []
  | .getRpm, _, es => es = []
  | .getEnabled, _, es => es = []
  | .getRotPeriod, _, es => es = []

/-- Events are appended in the fixed order of 60_exceptions.md R200, and no command emits another kind. -/
def Obligations.EventsFollowTheFixedOrder : Prop :=
  ∀ (i : Instr) (s t : State), exec i s = .next t →
    ∃ es, t.events = s.events ++ es ∧ EventsOf i t.response es

/-- The PWM level changes only together with a PWM event, and every PWM event carries the new level
(43_speed_regulator.md R147, 10_state.md R37). -/
def Obligations.DutyChangesOnlyWithItsEvent : Prop :=
  ∀ (i : Instr) (s t : State), exec i s = .next t →
    (t.pwm_duty ≠ s.pwm_duty → t.events = s.events ++ [.pwm t.pwm_duty]) ∧
    ∀ es, t.events = s.events ++ es → ∀ u, Event.pwm u ∈ es → u = t.pwm_duty

/-- Only FEED_BYTE and TICK read NOW: every other command does the same whatever the clock says
(30_encoding.md R77). -/
def Obligations.OnlyFeedByteAndTickReadNow : Prop :=
  ∀ (i : Instr) (s : State) (n : U32), (∀ b, i ≠ .feedByte b) → i ≠ .tick →
    ∃ t, exec i s = .next t ∧ exec i { s with now := n } = .next { t with now := n }

/-- No step writes the build-time parameters, the block's or the host's alike (00_scope.md R9). -/
def Obligations.ParametersAreNeverWritten : Prop := ∀ s t : State, step s = .next t → t.params = s.params

/-- The buffer keeps its canonical form at every step, from every state in which it has it. -/
def Obligations.BufferStaysCanonical : Prop := ∀ s t : State, s.buf.wf → step s = .next t → t.buf.wf

/-- The invariant holds after reset, for every legal setting of the parameters. -/
def Obligations.ResetHasTheInvariant : Prop :=
  State.reset.params.wf = true ∧ ∀ p : Params, p.wf = true → BlockInv (State.resetWith p)

/-- Every step keeps the invariant: assembler and cursor (10_state.md R23), frame buffer (40_frame_assembler.md R96),
setpoint and period (R28, R30), error range (R33), outputs and integrator (43_speed_regulator.md R148). -/
def Obligations.EveryStepKeepsTheInvariant : Prop := ∀ s t : State, BlockInv s → step s = .next t → BlockInv t

/-- Under the invariant the block answers every input: no step faults and none is refused, however many steps it runs
(00_scope.md R7, 60_exceptions.md R190). -/
def Obligations.TheBlockNeverStops : Prop :=
  ∀ (k : Nat) (s : State), BlockInv s → ∃ t, Sys2Proof.core.run k s = .next t ∧ StepsOn t

/-- Under NUMERICS = BINARY64 the registers of type Num hold finite binary64 numbers after every step
(10_state.md R31, R45). -/
def Obligations.Binary64RegistersStayBinary64 : Prop :=
  ∀ s t : State, BlockInv s → Binary64Inv s → step s = .next t → Binary64Inv t
end

