-- ==== Sys2Proof/Laws/Decode.lean ====
section
/-! SUPPORT. The four fields of a command word: packing them and reading them back. -/

namespace Sys2Proof

/-- The bits of a packed word: `C` lowest, then `B`, `A` and `OP` (30_encoding.md R71). -/
theorem getLsbD_packWord (op : Byte) (a b c : U32) (i : Nat) :
    (packWord op a b c).getLsbD i =
      if i < 32 then c.getLsbD i
      else if i < 64 then b.getLsbD (i - 32)
      else if i < 96 then a.getLsbD (i - 64)
      else op.getLsbD (i - 96) := by
  show BitVec.getLsbD (w := 8 + 32 + 32 + 32) (op ++ a ++ b ++ c) i = _
  simp only [BitVec.getLsbD_append]
  by_cases h1 : i < 32
  · simp [h1]
  · by_cases h2 : i < 64
    · simp [h1, h2, show i - 32 < 32 by omega]
    · by_cases h3 : i < 96
      · simp [h1, h2, h3, show ¬ i - 32 < 32 by omega, show ¬ 32 ≤ i - 64 by omega, Nat.sub_sub]
      · simp [h1, h2, h3, show ¬ i - 32 < 32 by omega, show ¬ i - 64 < 32 by omega, Nat.sub_sub]

@[simp] theorem opField_packWord (op : Byte) (a b c : U32) : opField (packWord op a b c) = op := by
  refine BitVec.eq_of_getLsbD_eq fun i hi => ?_
  simp [opField, getLsbD_packWord, hi, show ¬ 96 + i < 32 by omega, show ¬ 96 + i < 64 by omega]

@[simp] theorem aField_packWord (op : Byte) (a b c : U32) : aField (packWord op a b c) = a := by
  refine BitVec.eq_of_getLsbD_eq fun i hi => ?_
  simp [aField, getLsbD_packWord, hi, show ¬ 64 + i < 32 by omega, show 64 + i < 96 by omega]

@[simp] theorem bField_packWord (op : Byte) (a b c : U32) : bField (packWord op a b c) = b := by
  refine BitVec.eq_of_getLsbD_eq fun i hi => ?_
  simp [bField, getLsbD_packWord, hi, show 32 + i < 64 by omega]

@[simp] theorem cField_packWord (op : Byte) (a b c : U32) : cField (packWord op a b c) = c := by
  refine BitVec.eq_of_getLsbD_eq fun i hi => ?_
  simp [cField, getLsbD_packWord, hi]

/-- A word is its four fields. -/
theorem packWord_fields (w : CommandWord) : packWord (opField w) (aField w) (bField w) (cField w) = w := by
  refine BitVec.eq_of_getLsbD_eq fun i hi => ?_
  rw [getLsbD_packWord]
  by_cases h1 : i < 32
  · simp [h1, cField]
  · by_cases h2 : i < 64
    · simp [h1, h2, bField, show i - 32 < 32 by omega, show 32 + (i - 32) = i by omega]
    · by_cases h3 : i < 96
      · simp [h1, h2, h3, aField, show i - 64 < 32 by omega, show 64 + (i - 64) = i by omega]
      · simp [h1, h2, h3, opField, show i - 96 < 8 by omega, show 96 + (i - 96) = i by omega]

/-- Two words with the same fields are equal. -/
theorem packWord_inj {o o' : Byte} {a a' b b' c c' : U32} :
    packWord o a b c = packWord o' a' b' c' ↔ o = o' ∧ a = a' ∧ b = b' ∧ c = c' := by
  constructor
  · intro h
    have h1 := congrArg opField h
    have h2 := congrArg aField h
    have h3 := congrArg bField h
    have h4 := congrArg cField h
    simp only [opField_packWord, aField_packWord, bField_packWord, cField_packWord] at h1 h2 h3 h4
    exact ⟨h1, h2, h3, h4⟩
  · rintro ⟨rfl, rfl, rfl, rfl⟩
    rfl

/-- A mask of packed fields masks each field. -/
theorem packWord_and (o o' : Byte) (a a' b b' c c' : U32) :
    packWord o a b c &&& packWord o' a' b' c' = packWord (o &&& o') (a &&& a') (b &&& b') (c &&& c') := by
  refine BitVec.eq_of_getLsbD_eq fun i hi => ?_
  simp only [BitVec.getLsbD_and, getLsbD_packWord]
  split_ifs <;> rfl

/-- Where `decodeWhen` answers an instruction. -/
theorem decodeWhen_ok {z : Bool} {op : Byte} {i j : Instr} : decodeWhen z op i = .ok j ↔ z = true ∧ i = j := by
  cases z <;> simp [decodeWhen]

/-- Where `decodeWhen` rejects the word. -/
theorem decodeWhen_error {z : Bool} {op : Byte} {i : Instr} {e : DecodeError} :
    decodeWhen z op i = .error e ↔ z = false ∧ e = .nonzeroField op := by
  cases z <;> simp [decodeWhen, eq_comm]

/-- FEED_BYTE's operand, whose bits 31:8 are zero, is its low byte (30_encoding.md R73). -/
theorem lowByte_setWidth {a : U32} (h : a.extractLsb' 8 24 = 0#24) : (a.extractLsb' 0 8).setWidth 32 = a := by
  refine BitVec.eq_of_getLsbD_eq fun i hi => ?_
  by_cases h8 : i < 8
  · simp [h8, hi]
  · have h2 : (a.extractLsb' 8 24).getLsbD (i - 8) = false := by rw [h]; simp
    rw [BitVec.getLsbD_extractLsb', show 8 + (i - 8) = i by omega] at h2
    have h3 : a.getLsbD i = false := by simpa [show i - 8 < 24 by omega] using h2
    simp [h8, h3]

end Sys2Proof
end

