-- ==== Sys2Proof/Laws/Memory.lean ====
section
/-! SUPPORT. The frame buffer: read after write, the canonical form is kept and is unique, and what `memRead` and
`memWrite` can do. -/

namespace Sys2Proof.Machine

namespace Memory

@[simp] theorem read_nil (a : Nat) : Memory.read [] a = 0#8 := rfl

@[simp] theorem read_cons (k : Nat) (x : Byte) (m : Memory) (a : Nat) :
    Memory.read ((k, x) :: m) a = if k = a then x else m.read a := rfl

/-- An offset that no cell lists reads 0x00. -/
theorem read_eq_zero {m : Memory} {a : Nat} (h : ∀ c ∈ m, c.1 ≠ a) : m.read a = 0#8 := by
  induction m with
  | nil => rfl
  | cons c m ih =>
    obtain ⟨k, x⟩ := c
    have hk : k ≠ a := h (k, x) (by simp)
    simpa [hk] using ih fun c hc => h c (by simp [hc])

/-- The cells after a write are the written one and old ones. -/
theorem mem_write {m : Memory} {a : Nat} {v : Byte} {c : Host.Cell} (h : c ∈ m.write a v) :
    (c = (a, v) ∧ v ≠ 0#8) ∨ c ∈ m := by
  induction m with
  | nil =>
    by_cases hv : v = 0#8
    · simp [write, hv] at h
    · simp only [write, hv, if_false, List.mem_singleton] at h
      exact .inl ⟨h, hv⟩
  | cons d m ih =>
    obtain ⟨k, x⟩ := d
    simp only [write] at h
    by_cases hv : v = 0#8 <;> split_ifs at h <;> simp only [List.mem_cons] at h ⊢ <;> tauto

/-- In a strictly rising list, the offsets after the head are above it. -/
theorem head_lt {k : Nat} {x : Byte} {m : Memory} (h : List.Pairwise (fun c d => c.1 < d.1) ((k, x) :: m))
    {c : Host.Cell} (hc : c ∈ m) : k < c.1 :=
  List.rel_of_pairwise_cons h hc

/-- A write keeps the offsets strictly rising. -/
theorem write_sorted {m : Memory} (a : Nat) (v : Byte) (h : m.Pairwise fun c d => c.1 < d.1) :
    (m.write a v).Pairwise fun c d => c.1 < d.1 := by
  induction m with
  | nil => simp only [write]; split <;> simp
  | cons d m ih =>
    obtain ⟨k, x⟩ := d
    have hm := (List.pairwise_cons.mp h).2
    have hlt : ∀ c ∈ m, k < c.1 := fun c hc => head_lt h hc
    simp only [write]
    split_ifs with h1 h2 h2 h3
    · exact h
    · refine List.pairwise_cons.mpr ⟨fun c hc => ?_, h⟩
      rcases List.mem_cons.mp hc with rfl | hc
      · exact h1
      · exact h1.trans (hlt c hc)
    · exact hm
    · subst h2
      exact List.pairwise_cons.mpr ⟨hlt, hm⟩
    · refine List.pairwise_cons.mpr ⟨fun c hc => ?_, ih hm⟩
      rcases mem_write hc with ⟨rfl, -⟩ | hc
      · show k < a
        omega
      · exact hlt c hc

/-- A write at an offset of the buffer keeps the canonical form. -/
theorem write_wf {m : Memory} {a : Nat} (v : Byte) (h : m.wf) (ha : a < Config.FRAME_LEN) : (m.write a v).wf := by
  refine ⟨write_sorted a v h.1, fun c hc => ?_⟩
  rcases mem_write hc with ⟨rfl, hv⟩ | hc
  · exact ⟨hv, ha⟩
  · exact h.2 c hc

/-- The empty buffer is in canonical form. -/
theorem wf_nil : Memory.wf [] := by simp [wf]

/-- Reading the byte just written gives it. -/
theorem read_write_same {m : Memory} (a : Nat) (v : Byte) (h : m.Pairwise fun c d => c.1 < d.1) :
    (m.write a v).read a = v := by
  induction m with
  | nil => simp only [write]; split <;> simp_all
  | cons d m ih =>
    obtain ⟨k, x⟩ := d
    have hm := (List.pairwise_cons.mp h).2
    have hlt : ∀ c ∈ m, k < c.1 := fun c hc => head_lt h hc
    simp only [write]
    split_ifs with h1 h2 h2 h3
    · subst h2
      exact read_eq_zero fun c hc => by
        rcases List.mem_cons.mp hc with rfl | hc
        · exact (Nat.ne_of_gt h1)
        · exact Nat.ne_of_gt (h1.trans (hlt c hc))
    · simp
    · subst h2
      subst h3
      exact read_eq_zero fun c hc => Nat.ne_of_gt (hlt c hc)
    · simp
    · have : k ≠ a := fun e => h2 e.symm
      simpa [this] using ih hm

/-- A write leaves every other offset alone. -/
theorem read_write_other {m : Memory} {a b : Nat} (v : Byte) (hab : b ≠ a) : (m.write a v).read b = m.read b := by
  induction m with
  | nil => simp only [write]; split <;> simp [Ne.symm hab]
  | cons d m ih =>
    obtain ⟨k, x⟩ := d
    simp only [write]
    split_ifs with h1 h2 h2 h3
    · rfl
    · simp [Ne.symm hab]
    · subst h2
      simp [Ne.symm hab]
    · subst h2
      simp [Ne.symm hab]
    · simp [ih]

/-- Two buffers in canonical form that read alike are equal. -/
theorem eq_of_read {m n : Memory} (hm : m.wf) (hn : n.wf) (h : ∀ a, m.read a = n.read a) : m = n := by
  induction m generalizing n with
  | nil =>
    cases n with
    | nil => rfl
    | cons d n =>
      obtain ⟨k, x⟩ := d
      have := h k
      simp at this
      exact absurd this.symm (hn.2 (k, x) (by simp)).1
  | cons c m ih =>
    obtain ⟨k, x⟩ := c
    have hx : x ≠ 0#8 := (hm.2 (k, x) (by simp)).1
    cases n with
    | nil => exact absurd (by simpa using h k) hx
    | cons d n =>
      obtain ⟨l, y⟩ := d
      have hy : y ≠ 0#8 := (hn.2 (l, y) (by simp)).1
      have hkm : ∀ c ∈ m, k < c.1 := fun c hc => head_lt hm.1 hc
      have hln : ∀ c ∈ n, l < c.1 := fun c hc => head_lt hn.1 hc
      have hkl : k = l := by
        rcases Nat.lt_trichotomy k l with hlt | rfl | hlt
        · have := h k
          rw [read_eq_zero (m := (l, y) :: n) (fun c hc => by
            rcases List.mem_cons.mp hc with rfl | hc
            · exact Nat.ne_of_gt hlt
            · exact Nat.ne_of_gt (hlt.trans (hln c hc)))] at this
          exact absurd (by simpa using this) hx
        · rfl
        · have := h l
          rw [read_eq_zero (m := (k, x) :: m) (fun c hc => by
            rcases List.mem_cons.mp hc with rfl | hc
            · exact Nat.ne_of_gt hlt
            · exact Nat.ne_of_gt (hlt.trans (hkm c hc)))] at this
          exact absurd (by simpa using this.symm) hy
      subst hkl
      have hxy : x = y := by simpa using h k
      subst hxy
      congr 1
      refine ih ⟨(List.pairwise_cons.mp hm.1).2, fun c hc => hm.2 c (by simp [hc])⟩
        ⟨(List.pairwise_cons.mp hn.1).2, fun c hc => hn.2 c (by simp [hc])⟩ fun a => ?_
      by_cases ha : k = a
      · subst ha
        rw [read_eq_zero fun c hc => Nat.ne_of_gt (hkm c hc), read_eq_zero fun c hc => Nat.ne_of_gt (hln c hc)]
      · simpa [ha] using h a

end Memory

/-- `memRead` of one byte. -/
@[simp] theorem memRead_one (m : Memory) (i : Nat) : memRead m i 1 = (m.read i).toNat := by simp [memRead]

/-- `memRead` of two bytes is little-endian (20_memory.md R53). -/
theorem memRead_two (m : Memory) (i : Nat) : memRead m i 2 = (m.read i).toNat + 256 * (m.read (i + 1)).toNat := by
  simp [memRead]

/-- `memRead` depends only on the bytes read. -/
theorem memRead_congr {m n : Memory} (h : ∀ a, m.read a = n.read a) (i k : Nat) : memRead m i k = memRead n i k := by
  induction k generalizing i with
  | zero => rfl
  | succ k ih => simp [memRead, h, ih]

/-- A two-byte read is a u16. -/
theorem memRead_two_lt (m : Memory) (i : Nat) : memRead m i 2 < 65536 := by
  have := (m.read i).isLt
  have := (m.read (i + 1)).isLt
  rw [memRead_two]
  omega

/-- Everything `memWrite` can do: it stores the byte where the offset exists, and stops where it does not. -/
theorem memWrite_cases (i : Nat) (v : Byte) (s : State) :
    (i < 22 ∧ memWrite i v s = .ok { s with buf := s.buf.write i v }) ∨
      (22 ≤ i ∧ memWrite i v s = .error (.bufferOffset i)) := by
  unfold memWrite
  by_cases h : i < Config.FRAME_LEN
  · exact .inl ⟨h, by simp [h]⟩
  · exact .inr ⟨Nat.le_of_not_lt h, by simp [h]⟩

theorem memWrite_ok {i : Nat} (v : Byte) (s : State) (h : i < 22) :
    memWrite i v s = .ok { s with buf := s.buf.write i v } := by
  simp [memWrite, h]

end Sys2Proof.Machine
end

