-- ==== Sys2Proof/Laws/Flags.lean ====
section
/-! SUPPORT. The values of the response bits, and the operand forms of the frame in terms of its bytes. -/

namespace Sys2Proof.Machine

/-! ### Response values -/

/-- A byte is taken, no frame completes (40_frame_assembler.md R97). -/
@[simp] theorem feedByteValue_taken : feedByteValue false false = 0#32 := by decide

/-- A frame is rejected (40_frame_assembler.md R97). -/
@[simp] theorem feedByteValue_rejected : feedByteValue false true = 1#32 := by decide

/-- A frame is accepted (40_frame_assembler.md R97). -/
@[simp] theorem feedByteValue_accepted : feedByteValue true true = 3#32 := by decide

/-- The three bits of TICK's response value (45_tick_and_queries.md R173). -/
theorem tickValue_spec (c w f : Bool) :
    (tickValue c w f).toNat < 8 ∧ (tickValue c w f).getLsbD 0 = f ∧ (tickValue c w f).getLsbD 1 = w ∧
      (tickValue c w f).getLsbD 2 = c := by
  cases c <;> cases w <;> cases f <;> decide

/-! ### Frame fields -/

/-- Two bytes as a little-endian u16 (20_memory.md R53). -/
theorem word16 (a b : Byte) : BitVec.ofNat 16 (a.toNat + 256 * b.toNat) = (b ++ a : BitVec (8 + 8)) := by
  refine BitVec.eq_of_toNat_eq ?_
  rw [BitVec.toNat_append, BitVec.toNat_ofNat, Nat.shiftLeft_eq, Nat.mul_comm b.toNat,
    ← Nat.two_pow_add_eq_or_of_lt a.isLt]
  have := a.isLt
  have := b.isLt
  omega

/-- The accepted indexes (42_frame_decoder.md R111). -/
theorem indexInRange_iff (m : Memory) :
    indexInRange m = true ↔ 0xA0 ≤ (m.read 1).toNat ∧ (m.read 1).toNat ≤ 0xF9 := by
  simp [indexInRange, frameIndex, Config.IDX_MIN, Config.IDX_MAX]

/-- The group's first angle from the index byte (42_frame_decoder.md R112). -/
theorem firstAngle_eq (m : Memory) : firstAngle m = 4 * (((m.read 1).toNat : Int) - 160) := by
  simp only [firstAngle, frameGroup, frameIndex, memRead_one, Config.IDX_BASE]
  omega

/-- Only index 0xA0 is group 0 (42_frame_decoder.md R113). -/
theorem firstAngle_eq_zero (m : Memory) : firstAngle m = 0 ↔ m.read 1 = 0xA0#8 := by
  rw [firstAngle_eq]
  constructor
  · intro h
    refine BitVec.eq_of_toNat_eq ?_
    show _ = 160
    omega
  · intro h
    simp [h]

end Sys2Proof.Machine
end

