-- ==== Sys2Proof/Laws/Numerics.lean ====
section
/-! SUPPORT. The regulator's arithmetic: the clamp's range, the exact operators, and what a binary64 rounding can
answer. -/

namespace Sys2Proof.Machine

/-! ### The clamp -/

theorem clamp01_nonneg (x : Num) : 0 ≤ clamp01 x := le_min zero_le_one (le_max_left 0 x)

theorem clamp01_le_one (x : Num) : clamp01 x ≤ 1 := min_le_left 1 _

theorem clamp01_of_nonpos {x : Num} (h : x ≤ 0) : clamp01 x = 0 := by
  simp [clamp01, max_eq_left h]

theorem clamp01_of_one_le {x : Num} (h : 1 ≤ x) : clamp01 x = 1 := by
  simp [clamp01, max_eq_right (zero_le_one.trans h), min_eq_left h]

theorem clamp01_of_mem {x : Num} (h0 : 0 ≤ x) (h1 : x ≤ 1) : clamp01 x = x := by
  simp [clamp01, max_eq_right h0, min_eq_right h1]

/-! ### The exact operators -/

@[simp] theorem roundResult_exact (q : Num) : roundResult .exact q = q := rfl
@[simp] theorem roundResult_binary64 (q : Num) : roundResult .binary64 q = roundBinary64 q := rfl
@[simp] theorem numAdd_exact (a b : Num) : numAdd .exact a b = a + b := rfl
@[simp] theorem numMul_exact (a b : Num) : numMul .exact a b = a * b := rfl
@[simp] theorem numNeg_exact (a : Num) : numNeg .exact a = -a := rfl

/-- A quotient by a nonzero divisor uses no free value. -/
theorem numDiv_of_ne_zero (n : Numerics) (a : Num) {b : Num} (h : b ≠ 0) : numDiv n a b = roundResult n (a / b) := by
  simp [numDiv, h]

theorem numDiv_exact (a : Num) {b : Num} (h : b ≠ 0) : numDiv .exact a b = a / b := by
  simp [numDiv, h]

/-! ### Rounding a magnitude -/

/-- The rounded quotient is within half of the quotient. -/
theorem divNearestEven_near (n : Nat) {d : Nat} (hd : 0 < d) :
    2 * n ≤ 2 * (divNearestEven n d * d) + d ∧ 2 * (divNearestEven n d * d) ≤ 2 * n + d := by
  have h1 : d * (n / d) + n % d = n := Nat.div_add_mod n d
  have h2 : n % d < d := Nat.mod_lt n hd
  have h3 : (n / d + 1) * d = d * (n / d) + d := by ring
  have h4 : n / d * d = d * (n / d) := by ring
  simp only [divNearestEven]
  split_ifs <;> (constructor <;> omega)

/-- Halfway between two numbers, the even one. -/
theorem divNearestEven_tie {n d : Nat} (hd : 0 < d) (m : Nat) (h : 2 * n = (2 * m + 1) * d) :
    divNearestEven n d % 2 = 0 := by
  have h1 : d * (n / d) + n % d = n := Nat.div_add_mod n d
  have e : n / d = m := by
    apply Nat.div_eq_of_lt_le <;> nlinarith
  have e2 : 2 * (n % d) = d := by
    rw [e] at h1
    nlinarith
  simp only [divNearestEven, e, e2, lt_irrefl, if_false]
  split <;> omega

/-- A positive rational lies between the powers of two that its logarithms give. -/
theorem pow_log2_bounds {a : Nat} (ha : 0 < a) : (2 : Rat) ^ (a.log2 : Int) ≤ a ∧ (a : Rat) < 2 ^ ((a.log2 : Int) + 1) := by
  have h1 : 2 ^ a.log2 ≤ a := Nat.log2_self_le ha.ne'
  have h2 : a < 2 ^ (a.log2 + 1) := Nat.lt_log2_self
  constructor
  · rw [zpow_natCast]
    exact_mod_cast h1
  · rw [show ((a.log2 : Int) + 1) = ((a.log2 + 1 : Nat) : Int) by push_cast; rfl, zpow_natCast]
    exact_mod_cast h2

theorem zpow_toNat (t : Int) : (2 : Rat) ^ t = 2 ^ t.toNat / 2 ^ (-t).toNat := by
  rcases le_total 0 t with h | h
  · obtain ⟨n, rfl⟩ := Int.eq_ofNat_of_zero_le h
    simp
  · obtain ⟨n, hn⟩ := Int.eq_ofNat_of_zero_le (neg_nonneg.mpr h)
    have ht : t = -(n : Int) := by omega
    subst ht
    simp

/-- The magnitude `a / d` is below 53 bits of its quantum, and has all of them unless the quantum is the smallest. -/
theorem binary64Quantum_spec {a d : Nat} (ha : 0 < a) (hd : 0 < d) :
    -1074 ≤ binary64Quantum a d ∧ (a : Rat) / d < 2 ^ (binary64Quantum a d + 53) ∧
      (binary64Quantum a d = -1074 ∨ (2 : Rat) ^ (binary64Quantum a d + 52) ≤ a / d) := by
  have hda : (0 : Rat) < d := by exact_mod_cast hd
  obtain ⟨ha1, ha2⟩ := pow_log2_bounds ha
  obtain ⟨hd1, hd2⟩ := pow_log2_bounds hd
  set la : Int := (a.log2 : Int)
  set ld : Int := (d.log2 : Int)
  have hcond : (d * 2 ^ (la - ld).toNat ≤ a * 2 ^ (-(la - ld)).toNat) ↔ (2 : Rat) ^ (la - ld) ≤ a / d := by
    rw [zpow_toNat, div_le_div_iff₀ (by positivity) hda]
    constructor
    · intro h
      have : (d : Rat) * 2 ^ (la - ld).toNat ≤ a * 2 ^ (-(la - ld)).toNat := by exact_mod_cast h
      linarith [mul_comm (d : Rat) (2 ^ (la - ld).toNat)]
    · intro h
      have : (d : Rat) * 2 ^ (la - ld).toNat ≤ a * 2 ^ (-(la - ld)).toNat := by
        linarith [mul_comm (d : Rat) (2 ^ (la - ld).toNat)]
      exact_mod_cast this
  have hup : (a : Rat) / d < 2 ^ (la - ld + 1) := by
    rw [div_lt_iff₀ hda]
    calc (a : Rat) < 2 ^ (la + 1) := ha2
      _ = 2 ^ (la - ld + 1) * 2 ^ ld := by rw [← zpow_add₀ (by norm_num)]; congr 1; ring
      _ ≤ 2 ^ (la - ld + 1) * d := by gcongr
  have hlo : (2 : Rat) ^ (la - ld - 1) ≤ a / d := by
    rw [le_div_iff₀ hda]
    calc (2 : Rat) ^ (la - ld - 1) * d ≤ 2 ^ (la - ld - 1) * 2 ^ (ld + 1) := by gcongr
      _ = 2 ^ la := by rw [← zpow_add₀ (by norm_num)]; congr 1; ring
      _ ≤ a := ha1
  obtain ⟨e, he, hq, h1, h2⟩ : ∃ e : Int, binary64Quantum a d = max (e - 52) (-1074) ∧ True ∧
      (2 : Rat) ^ e ≤ a / d ∧ (a : Rat) / d < 2 ^ (e + 1) := by
    by_cases hc : d * 2 ^ (la - ld).toNat ≤ a * 2 ^ (-(la - ld)).toNat
    · exact ⟨la - ld, by simp only [binary64Quantum]; rw [if_pos hc], trivial, hcond.mp hc, hup⟩
    · refine ⟨la - ld - 1, by simp only [binary64Quantum]; rw [if_neg hc], trivial, hlo, ?_⟩
      rw [sub_add_cancel]
      exact lt_of_not_ge fun h => hc (hcond.mpr h)
  rw [he]
  refine ⟨le_max_right _ _, h2.trans_le ?_, ?_⟩
  · apply zpow_le_zpow_right₀ (by norm_num)
    have := le_max_left (e - 52) (-1074)
    omega
  · rcases le_total (e - 52) (-1074) with h | h
    · exact .inl (max_eq_right h)
    · right
      rw [max_eq_left h, sub_add_cancel]
      exact h1

/-- What rounding the magnitude `a / d` answers: at most 2^53 quanta, within half a quantum. -/
theorem roundMagnitude_spec {a d : Nat} (ha : 0 < a) (hd : 0 < d) :
    ∃ k : Nat, roundMagnitude a d = (k : Rat) * 2 ^ binary64Quantum a d ∧ k ≤ 2 ^ 53 ∧
      |roundMagnitude a d - (a : Rat) / d| ≤ 2 ^ binary64Quantum a d / 2 := by
  obtain ⟨-, hlt, -⟩ := binary64Quantum_spec ha hd
  set t := binary64Quantum a d with ht
  have hda : (0 : Rat) < d := by exact_mod_cast hd
  have h2t : (0 : Rat) < 2 ^ t := by positivity
  set n := a * 2 ^ (-t).toNat with hn
  set m := d * 2 ^ t.toNat with hm
  have hm0 : 0 < m := by positivity
  have hval : roundMagnitude a d = (divNearestEven n m : Rat) * 2 ^ t := by
    show mkRat ((divNearestEven n m * 2 ^ t.toNat : Nat) : Int) (2 ^ (-t).toNat) = _
    rw [Rat.mkRat_eq_div, zpow_toNat]
    push_cast
    ring
  have hx : (a : Rat) / d = (n : Rat) / m * 2 ^ t := by
    rw [zpow_toNat, hn, hm]
    push_cast
    field_simp
  obtain ⟨hnear1, hnear2⟩ := divNearestEven_near n hm0
  have hmq : (0 : Rat) < m := by exact_mod_cast hm0
  have hn1 : 2 * (n : Rat) ≤ 2 * (divNearestEven n m * m) + m := by exact_mod_cast hnear1
  have hn2 : 2 * ((divNearestEven n m : Rat) * m) ≤ 2 * n + m := by exact_mod_cast hnear2
  have hdiff : |(divNearestEven n m : Rat) - n / m| ≤ 1 / 2 := by
    have e : (divNearestEven n m : Rat) - n / m = (divNearestEven n m * m - n) / m := by field_simp
    rw [e, abs_div, abs_of_pos hmq, div_le_iff₀ hmq, abs_le]
    constructor <;> linarith
  refine ⟨divNearestEven n m, hval, ?_, ?_⟩
  · have h1 : (n : Rat) / m < 2 ^ 53 := by
      have : (n : Rat) / m * 2 ^ t < 2 ^ 53 * 2 ^ t := by
        rw [← hx]
        refine hlt.trans_eq ?_
        rw [zpow_add₀ (by norm_num), mul_comm]
        norm_num
      exact lt_of_mul_lt_mul_right this h2t.le
    have h2 : (divNearestEven n m : Rat) < 2 ^ 53 + 1 := by
      have := (abs_le.mp hdiff).2
      linarith
    have h3 : divNearestEven n m < 2 ^ 53 + 1 := by exact_mod_cast h2
    omega
  · rw [hval, hx, ← sub_mul, abs_mul, abs_of_pos h2t]
    calc |(divNearestEven n m : Rat) - n / m| * 2 ^ t ≤ 1 / 2 * 2 ^ t := by gcongr
      _ = 2 ^ t / 2 := by ring

/-! ### Rounding -/

@[simp] theorem roundBinary64_zero : roundBinary64 0 = 0 := rfl

/-- What a rounding answers: at most 2^53 quanta of an exponent not below -1074, within half a quantum of the exact
value, which has 53 bits unless the exponent is the smallest. -/
theorem roundBinary64_spec (q : Num) :
    ∃ k t : Int, roundBinary64 q = (k : Rat) * 2 ^ t ∧ |k| ≤ 2 ^ 53 ∧ -1074 ≤ t ∧
      |roundBinary64 q - q| ≤ 2 ^ t / 2 ∧ (t = -1074 ∨ (2 : Rat) ^ (t + 52) ≤ |q|) := by
  by_cases h0 : q.num = 0
  · have hq : q = 0 := Rat.num_eq_zero.mp h0
    subst hq
    refine ⟨0, -1074, by simp, by norm_num, le_refl _, ?_, .inl rfl⟩
    rw [roundBinary64_zero, sub_self, abs_zero]
    positivity
  · have ha : 0 < q.num.natAbs := Int.natAbs_pos.mpr h0
    have hd : 0 < q.den := q.den_pos
    obtain ⟨k, hk, hkle, hnear⟩ := roundMagnitude_spec ha hd
    obtain ⟨ht, -, hbig⟩ := binary64Quantum_spec ha hd
    have habs : ((q.num.natAbs : Nat) : Rat) / q.den = |q| := by
      conv_rhs => rw [← Rat.num_div_den q]
      rw [abs_div, Nat.abs_cast]
      congr 1
      rw [← Int.cast_natCast, Int.natCast_natAbs, Int.cast_abs]
    rw [habs] at hnear hbig
    by_cases hneg : q.num < 0
    · have hq : q < 0 := Rat.num_neg.mp hneg
      have hr : roundBinary64 q = -roundMagnitude q.num.natAbs q.den := by
        simp [roundBinary64, h0, hneg]
      refine ⟨-k, _, by rw [hr, hk]; push_cast; ring, by rw [abs_neg, Nat.abs_cast]; exact_mod_cast hkle, ht, ?_,
        hbig⟩
      rw [hr]
      rw [abs_of_neg hq] at hnear
      rwa [show -roundMagnitude q.num.natAbs q.den - q = -(roundMagnitude q.num.natAbs q.den - -q) by ring, abs_neg]
    · have hq : 0 ≤ q := Rat.num_nonneg.mp (not_lt.mp hneg)
      have hr : roundBinary64 q = roundMagnitude q.num.natAbs q.den := by
        simp [roundBinary64, h0, hneg]
      refine ⟨k, _, by rw [hr, hk]; rfl, by rw [Nat.abs_cast]; exact_mod_cast hkle, ht, ?_, hbig⟩
      rw [hr]
      rwa [abs_of_nonneg hq] at hnear

/-- A carry to 2^53 quanta is half as many quanta of the next exponent: 53 bits are always enough. -/
theorem exists_significand {k : Int} (t : Int) (hk : |k| ≤ 2 ^ 53) :
    ∃ m u : Int, (k : Rat) * 2 ^ t = (m : Rat) * 2 ^ u ∧ |m| < 2 ^ 53 ∧ t ≤ u := by
  rcases lt_or_eq_of_le hk with h | h
  · exact ⟨k, t, rfl, h, le_refl t⟩
  · have hcases := (abs_eq (show (0 : Int) ≤ 2 ^ 53 by norm_num)).mp h
    refine ⟨k / 2, t + 1, ?_, ?_, by omega⟩
    · have hodd : k = 2 * (k / 2) := by
        rcases hcases with h | h <;> subst h <;> norm_num
      conv_lhs => rw [hodd]
      rw [zpow_add_one₀ (by norm_num)]
      push_cast
      ring
    · rcases hcases with h | h <;> subst h <;> norm_num

/-- A rounding is a number of at most 53 bits and an exponent not below -1074 (log 11: with no largest exponent). -/
theorem roundBinary64_mem (q : Num) :
    ∃ m u : Int, roundBinary64 q = (m : Rat) * 2 ^ u ∧ |m| < 2 ^ 53 ∧ -1074 ≤ u := by
  obtain ⟨k, t, hr, hk, ht, -, -⟩ := roundBinary64_spec q
  obtain ⟨m, u, he, hm, hu⟩ := exists_significand t hk
  exact ⟨m, u, hr.trans he, hm, ht.trans hu⟩

/-- At most 2^53 quanta of an exponent not below -1074, below 2^1024 in magnitude: a finite binary64 number. -/
theorem isBinary64_of_grid {k t : Int} (hk : |k| ≤ 2 ^ 53) (ht : -1074 ≤ t)
    (hlt : |(k : Rat) * 2 ^ t| < 2 ^ (1024 : Int)) : IsBinary64 ((k : Rat) * 2 ^ t) := by
  obtain ⟨m, u, he, hm, hu⟩ := exists_significand t hk
  rw [he] at hlt ⊢
  by_cases hu2 : u ≤ 971
  · exact ⟨m, u, hm, ht.trans hu, hu2, rfl⟩
  · obtain ⟨n, hn⟩ := Int.eq_ofNat_of_zero_le (show (0 : Int) ≤ u - 971 by omega)
    have hval : (m : Rat) * 2 ^ u = ((m * 2 ^ n : Int) : Rat) * 2 ^ (971 : Int) := by
      have hu3 : u = (n : Int) + 971 := by
        have : (Int.ofNat n) = (n : Int) := rfl
        omega
      rw [hu3, zpow_add₀ (by norm_num), zpow_natCast]
      generalize (2 : Rat) ^ (971 : Int) = x
      push_cast
      ring
    refine ⟨m * 2 ^ n, 971, ?_, by norm_num, le_refl _, hval⟩
    rw [hval, abs_mul, abs_of_pos (show (0 : Rat) < 2 ^ (971 : Int) by positivity),
      show (2 : Rat) ^ (1024 : Int) = 2 ^ 53 * 2 ^ (971 : Int) by
        rw [← zpow_natCast (2 : Rat) 53, ← zpow_add₀ (by norm_num)]; norm_num] at hlt
    have := lt_of_mul_lt_mul_right hlt (by positivity)
    exact_mod_cast this

/-- A rounding of a value far enough below 2^1024 does not overflow (log 11). -/
theorem isBinary64_round {q : Num} (h : |q| < (2 ^ 54 - 1) * 2 ^ (970 : Int)) : IsBinary64 (roundBinary64 q) := by
  obtain ⟨k, t, hr, hk, ht, hnear, hbig⟩ := roundBinary64_spec q
  rw [hr]
  refine isBinary64_of_grid hk ht ?_
  have h1024 : (2 : Rat) ^ (1024 : Int) = 2 ^ 54 * 2 ^ (970 : Int) := by
    rw [← zpow_natCast (2 : Rat) 54, ← zpow_add₀ (by norm_num)]; norm_num
  by_cases ht2 : t ≤ 970
  · have hkq : |(k : Rat)| ≤ 2 ^ 53 := by exact_mod_cast hk
    have h970 : (2 : Rat) ^ t ≤ 2 ^ (970 : Int) := zpow_le_zpow_right₀ (by norm_num) ht2
    rw [abs_mul, abs_of_pos (show (0 : Rat) < 2 ^ t by positivity), h1024]
    calc |(k : Rat)| * 2 ^ t ≤ 2 ^ 53 * 2 ^ (970 : Int) := by gcongr
      _ < 2 ^ 54 * 2 ^ (970 : Int) := mul_lt_mul_of_pos_right (by norm_num) (by positivity)
  · have hq : (2 : Rat) ^ (t + 52) ≤ |q| := hbig.resolve_left (by omega)
    have htlt : t + 52 < 1024 := by
      have : (2 : Rat) ^ (t + 52) < 2 ^ (1024 : Int) := by
        refine (hq.trans_lt h).trans ?_
        rw [h1024]
        exact mul_lt_mul_of_pos_right (by norm_num) (by positivity)
      exact (zpow_lt_zpow_iff_right₀ (by norm_num)).mp this
    have ht3 : t = 971 := by omega
    subst ht3
    have h971 : (2 : Rat) ^ (971 : Int) = 2 ^ (970 : Int) * 2 := zpow_add_one₀ (by norm_num) 970
    rw [← hr, h1024]
    rw [h971] at hnear
    generalize (2 : Rat) ^ (970 : Int) = x at h hnear ⊢
    have htri : |roundBinary64 q| ≤ |roundBinary64 q - q| + |q| := by
      simpa using abs_add_le (roundBinary64 q - q) q
    linarith

/-- Rounding does not carry a value past a power of two. -/
theorem abs_round_le {q : Num} {j : Int} (hj : -1074 ≤ j) (h : |q| ≤ 2 ^ j) : |roundBinary64 q| ≤ 2 ^ j := by
  obtain ⟨k, t, hr, -, -, hnear, hbig⟩ := roundBinary64_spec q
  have h2t : (0 : Rat) < 2 ^ t := by positivity
  have htj : t ≤ j := by
    rcases hbig with rfl | hbig
    · exact hj
    · have : (2 : Rat) ^ (t + 52) ≤ 2 ^ j := hbig.trans h
      have := (zpow_le_zpow_iff_right₀ (show (1 : Rat) < 2 by norm_num)).mp this
      omega
  obtain ⟨n, hn⟩ := Int.eq_ofNat_of_zero_le (show (0 : Int) ≤ j - t by omega)
  have hj2 : (2 : Rat) ^ j = 2 ^ n * 2 ^ t := by
    rw [← zpow_natCast, ← zpow_add₀ (by norm_num)]; congr 1; omega
  have htri : |roundBinary64 q| ≤ |roundBinary64 q - q| + |q| := by
    simpa using abs_add_le (roundBinary64 q - q) q
  have hle : |(k : Rat)| * 2 ^ t ≤ (1 / 2 + 2 ^ n) * 2 ^ t := by
    rw [← abs_of_pos h2t, ← abs_mul, abs_of_pos h2t, ← hr, add_mul, ← hj2]
    linarith
  have hk : |(k : Rat)| ≤ 1 / 2 + 2 ^ n := le_of_mul_le_mul_right hle h2t
  have hki : |k| ≤ 2 ^ n := by
    have : ((|k| : Int) : Rat) < ((2 ^ n + 1 : Int) : Rat) := by
      push_cast
      linarith
    have := Int.cast_lt.mp this
    omega
  have hkq : |(k : Rat)| ≤ 2 ^ n := by exact_mod_cast hki
  rw [hr, abs_mul, abs_of_pos h2t, hj2]
  gcongr

/-- 0 and 1 are binary64 numbers. -/
theorem isBinary64_zero : IsBinary64 0 := ⟨0, 0, by norm_num, by norm_num, by norm_num, by norm_num⟩

theorem isBinary64_one : IsBinary64 1 := ⟨1, 0, by norm_num, by norm_num, by norm_num, by norm_num⟩

/-- A clamped rounding is a binary64 number, whatever was rounded. -/
theorem isBinary64_clamp01_round (q : Num) : IsBinary64 (clamp01 (roundBinary64 q)) := by
  rcases le_total (roundBinary64 q) 0 with h | h
  · rw [clamp01_of_nonpos h]
    exact isBinary64_zero
  rcases le_total 1 (roundBinary64 q) with h1 | h1
  · rw [clamp01_of_one_le h1]
    exact isBinary64_one
  rw [clamp01_of_mem h h1]
  obtain ⟨k, t, hr, hk, ht, -, -⟩ := roundBinary64_spec q
  rw [hr] at h h1 ⊢
  refine isBinary64_of_grid hk ht ?_
  rw [abs_of_nonneg h]
  exact h1.trans_lt (one_lt_zpow₀ (by norm_num) (by norm_num))

end Sys2Proof.Machine
end

