-- ==== Sys2Proof/Laws/State.lean ====
section
/-! SUPPORT. What each named update of the state does to each field, one lemma per field, so that no proof unfolds a
record update. -/

namespace Sys2Proof.Machine

/-! ### emit -/

@[simp] theorem emit_asm_state (e : Event) (s : State) : (emit e s).asm_state = s.asm_state := rfl
@[simp] theorem emit_asm_idx (e : Event) (s : State) : (emit e s).asm_idx = s.asm_idx := rfl
@[simp] theorem emit_buf (e : Event) (s : State) : (emit e s).buf = s.buf := rfl
@[simp] theorem emit_rpm_q6 (e : Event) (s : State) : (emit e s).rpm_q6 = s.rpm_q6 := rfl
@[simp] theorem emit_rot_last_ms (e : Event) (s : State) : (emit e s).rot_last_ms = s.rot_last_ms := rfl
@[simp] theorem emit_rot_period_ms (e : Event) (s : State) : (emit e s).rot_period_ms = s.rot_period_ms := rfl
@[simp] theorem emit_sp_q6 (e : Event) (s : State) : (emit e s).sp_q6 = s.sp_q6 := rfl
@[simp] theorem emit_kp_u (e : Event) (s : State) : (emit e s).kp_u = s.kp_u := rfl
@[simp] theorem emit_ki_u (e : Event) (s : State) : (emit e s).ki_u = s.ki_u := rfl
@[simp] theorem emit_kd_u (e : Event) (s : State) : (emit e s).kd_u = s.kd_u := rfl
@[simp] theorem emit_period_ms (e : Event) (s : State) : (emit e s).period_ms = s.period_ms := rfl
@[simp] theorem emit_pid_I (e : Event) (s : State) : (emit e s).pid_I = s.pid_I := rfl
@[simp] theorem emit_y_prev_q6 (e : Event) (s : State) : (emit e s).y_prev_q6 = s.y_prev_q6 := rfl
@[simp] theorem emit_e_prev_q6 (e : Event) (s : State) : (emit e s).e_prev_q6 = s.e_prev_q6 := rfl
@[simp] theorem emit_pid_out (e : Event) (s : State) : (emit e s).pid_out = s.pid_out := rfl
@[simp] theorem emit_pid_last_ms (e : Event) (s : State) : (emit e s).pid_last_ms = s.pid_last_ms := rfl
@[simp] theorem emit_motor_en (e : Event) (s : State) : (emit e s).motor_en = s.motor_en := rfl
@[simp] theorem emit_pwm_duty (e : Event) (s : State) : (emit e s).pwm_duty = s.pwm_duty := rfl
@[simp] theorem emit_wd_count (e : Event) (s : State) : (emit e s).wd_count = s.wd_count := rfl
@[simp] theorem emit_wd_last_ms (e : Event) (s : State) : (emit e s).wd_last_ms = s.wd_last_ms := rfl
@[simp] theorem emit_params (e : Event) (s : State) : (emit e s).params = s.params := rfl
@[simp] theorem emit_pending (e : Event) (s : State) : (emit e s).pending = s.pending := rfl
@[simp] theorem emit_now (e : Event) (s : State) : (emit e s).now = s.now := rfl
@[simp] theorem emit_response (e : Event) (s : State) : (emit e s).response = s.response := rfl
@[simp] theorem emit_events (e : Event) (s : State) : (emit e s).events = s.events ++ [e] := rfl

/-! ### respond -/

@[simp] theorem respond_asm_state (st : Status) (v : U32) (s : State) : (respond st v s).asm_state = s.asm_state := rfl
@[simp] theorem respond_asm_idx (st : Status) (v : U32) (s : State) : (respond st v s).asm_idx = s.asm_idx := rfl
@[simp] theorem respond_buf (st : Status) (v : U32) (s : State) : (respond st v s).buf = s.buf := rfl
@[simp] theorem respond_rpm_q6 (st : Status) (v : U32) (s : State) : (respond st v s).rpm_q6 = s.rpm_q6 := rfl
@[simp] theorem respond_rot_last_ms (st : Status) (v : U32) (s : State) : (respond st v s).rot_last_ms = s.rot_last_ms := rfl
@[simp] theorem respond_rot_period_ms (st : Status) (v : U32) (s : State) : (respond st v s).rot_period_ms = s.rot_period_ms := rfl
@[simp] theorem respond_sp_q6 (st : Status) (v : U32) (s : State) : (respond st v s).sp_q6 = s.sp_q6 := rfl
@[simp] theorem respond_kp_u (st : Status) (v : U32) (s : State) : (respond st v s).kp_u = s.kp_u := rfl
@[simp] theorem respond_ki_u (st : Status) (v : U32) (s : State) : (respond st v s).ki_u = s.ki_u := rfl
@[simp] theorem respond_kd_u (st : Status) (v : U32) (s : State) : (respond st v s).kd_u = s.kd_u := rfl
@[simp] theorem respond_period_ms (st : Status) (v : U32) (s : State) : (respond st v s).period_ms = s.period_ms := rfl
@[simp] theorem respond_pid_I (st : Status) (v : U32) (s : State) : (respond st v s).pid_I = s.pid_I := rfl
@[simp] theorem respond_y_prev_q6 (st : Status) (v : U32) (s : State) : (respond st v s).y_prev_q6 = s.y_prev_q6 := rfl
@[simp] theorem respond_e_prev_q6 (st : Status) (v : U32) (s : State) : (respond st v s).e_prev_q6 = s.e_prev_q6 := rfl
@[simp] theorem respond_pid_out (st : Status) (v : U32) (s : State) : (respond st v s).pid_out = s.pid_out := rfl
@[simp] theorem respond_pid_last_ms (st : Status) (v : U32) (s : State) : (respond st v s).pid_last_ms = s.pid_last_ms := rfl
@[simp] theorem respond_motor_en (st : Status) (v : U32) (s : State) : (respond st v s).motor_en = s.motor_en := rfl
@[simp] theorem respond_pwm_duty (st : Status) (v : U32) (s : State) : (respond st v s).pwm_duty = s.pwm_duty := rfl
@[simp] theorem respond_wd_count (st : Status) (v : U32) (s : State) : (respond st v s).wd_count = s.wd_count := rfl
@[simp] theorem respond_wd_last_ms (st : Status) (v : U32) (s : State) : (respond st v s).wd_last_ms = s.wd_last_ms := rfl
@[simp] theorem respond_params (st : Status) (v : U32) (s : State) : (respond st v s).params = s.params := rfl
@[simp] theorem respond_pending (st : Status) (v : U32) (s : State) : (respond st v s).pending = s.pending := rfl
@[simp] theorem respond_now (st : Status) (v : U32) (s : State) : (respond st v s).now = s.now := rfl
@[simp] theorem respond_response (st : Status) (v : U32) (s : State) : (respond st v s).response = some ⟨st, v⟩ := rfl
@[simp] theorem respond_events (st : Status) (v : U32) (s : State) : (respond st v s).events = s.events := rfl

/-! ### beginCommand -/

@[simp] theorem beginCommand_asm_state (t : U32) (rest : List Input) (s : State) : (beginCommand t rest s).asm_state = s.asm_state := rfl
@[simp] theorem beginCommand_asm_idx (t : U32) (rest : List Input) (s : State) : (beginCommand t rest s).asm_idx = s.asm_idx := rfl
@[simp] theorem beginCommand_buf (t : U32) (rest : List Input) (s : State) : (beginCommand t rest s).buf = s.buf := rfl
@[simp] theorem beginCommand_rpm_q6 (t : U32) (rest : List Input) (s : State) : (beginCommand t rest s).rpm_q6 = s.rpm_q6 := rfl
@[simp] theorem beginCommand_rot_last_ms (t : U32) (rest : List Input) (s : State) : (beginCommand t rest s).rot_last_ms = s.rot_last_ms := rfl
@[simp] theorem beginCommand_rot_period_ms (t : U32) (rest : List Input) (s : State) : (beginCommand t rest s).rot_period_ms = s.rot_period_ms := rfl
@[simp] theorem beginCommand_sp_q6 (t : U32) (rest : List Input) (s : State) : (beginCommand t rest s).sp_q6 = s.sp_q6 := rfl
@[simp] theorem beginCommand_kp_u (t : U32) (rest : List Input) (s : State) : (beginCommand t rest s).kp_u = s.kp_u := rfl
@[simp] theorem beginCommand_ki_u (t : U32) (rest : List Input) (s : State) : (beginCommand t rest s).ki_u = s.ki_u := rfl
@[simp] theorem beginCommand_kd_u (t : U32) (rest : List Input) (s : State) : (beginCommand t rest s).kd_u = s.kd_u := rfl
@[simp] theorem beginCommand_period_ms (t : U32) (rest : List Input) (s : State) : (beginCommand t rest s).period_ms = s.period_ms := rfl
@[simp] theorem beginCommand_pid_I (t : U32) (rest : List Input) (s : State) : (beginCommand t rest s).pid_I = s.pid_I := rfl
@[simp] theorem beginCommand_y_prev_q6 (t : U32) (rest : List Input) (s : State) : (beginCommand t rest s).y_prev_q6 = s.y_prev_q6 := rfl
@[simp] theorem beginCommand_e_prev_q6 (t : U32) (rest : List Input) (s : State) : (beginCommand t rest s).e_prev_q6 = s.e_prev_q6 := rfl
@[simp] theorem beginCommand_pid_out (t : U32) (rest : List Input) (s : State) : (beginCommand t rest s).pid_out = s.pid_out := rfl
@[simp] theorem beginCommand_pid_last_ms (t : U32) (rest : List Input) (s : State) : (beginCommand t rest s).pid_last_ms = s.pid_last_ms := rfl
@[simp] theorem beginCommand_motor_en (t : U32) (rest : List Input) (s : State) : (beginCommand t rest s).motor_en = s.motor_en := rfl
@[simp] theorem beginCommand_pwm_duty (t : U32) (rest : List Input) (s : State) : (beginCommand t rest s).pwm_duty = s.pwm_duty := rfl
@[simp] theorem beginCommand_wd_count (t : U32) (rest : List Input) (s : State) : (beginCommand t rest s).wd_count = s.wd_count := rfl
@[simp] theorem beginCommand_wd_last_ms (t : U32) (rest : List Input) (s : State) : (beginCommand t rest s).wd_last_ms = s.wd_last_ms := rfl
@[simp] theorem beginCommand_params (t : U32) (rest : List Input) (s : State) : (beginCommand t rest s).params = s.params := rfl
@[simp] theorem beginCommand_pending (t : U32) (rest : List Input) (s : State) : (beginCommand t rest s).pending = rest := rfl
@[simp] theorem beginCommand_now (t : U32) (rest : List Input) (s : State) : (beginCommand t rest s).now = t := rfl
@[simp] theorem beginCommand_response (t : U32) (rest : List Input) (s : State) : (beginCommand t rest s).response = none := rfl
@[simp] theorem beginCommand_events (t : U32) (rest : List Input) (s : State) : (beginCommand t rest s).events = [] := rfl

/-! ### clearFrame -/

@[simp] theorem clearFrame_asm_state (s : State) : (clearFrame s).asm_state = .seekingStart := rfl
@[simp] theorem clearFrame_asm_idx (s : State) : (clearFrame s).asm_idx = 0#5 := rfl
@[simp] theorem clearFrame_buf (s : State) : (clearFrame s).buf = [] := rfl
@[simp] theorem clearFrame_rpm_q6 (s : State) : (clearFrame s).rpm_q6 = s.rpm_q6 := rfl
@[simp] theorem clearFrame_rot_last_ms (s : State) : (clearFrame s).rot_last_ms = s.rot_last_ms := rfl
@[simp] theorem clearFrame_rot_period_ms (s : State) : (clearFrame s).rot_period_ms = s.rot_period_ms := rfl
@[simp] theorem clearFrame_sp_q6 (s : State) : (clearFrame s).sp_q6 = s.sp_q6 := rfl
@[simp] theorem clearFrame_kp_u (s : State) : (clearFrame s).kp_u = s.kp_u := rfl
@[simp] theorem clearFrame_ki_u (s : State) : (clearFrame s).ki_u = s.ki_u := rfl
@[simp] theorem clearFrame_kd_u (s : State) : (clearFrame s).kd_u = s.kd_u := rfl
@[simp] theorem clearFrame_period_ms (s : State) : (clearFrame s).period_ms = s.period_ms := rfl
@[simp] theorem clearFrame_pid_I (s : State) : (clearFrame s).pid_I = s.pid_I := rfl
@[simp] theorem clearFrame_y_prev_q6 (s : State) : (clearFrame s).y_prev_q6 = s.y_prev_q6 := rfl
@[simp] theorem clearFrame_e_prev_q6 (s : State) : (clearFrame s).e_prev_q6 = s.e_prev_q6 := rfl
@[simp] theorem clearFrame_pid_out (s : State) : (clearFrame s).pid_out = s.pid_out := rfl
@[simp] theorem clearFrame_pid_last_ms (s : State) : (clearFrame s).pid_last_ms = s.pid_last_ms := rfl
@[simp] theorem clearFrame_motor_en (s : State) : (clearFrame s).motor_en = s.motor_en := rfl
@[simp] theorem clearFrame_pwm_duty (s : State) : (clearFrame s).pwm_duty = s.pwm_duty := rfl
@[simp] theorem clearFrame_wd_count (s : State) : (clearFrame s).wd_count = s.wd_count := rfl
@[simp] theorem clearFrame_wd_last_ms (s : State) : (clearFrame s).wd_last_ms = s.wd_last_ms := rfl
@[simp] theorem clearFrame_params (s : State) : (clearFrame s).params = s.params := rfl
@[simp] theorem clearFrame_pending (s : State) : (clearFrame s).pending = s.pending := rfl
@[simp] theorem clearFrame_now (s : State) : (clearFrame s).now = s.now := rfl
@[simp] theorem clearFrame_response (s : State) : (clearFrame s).response = s.response := rfl
@[simp] theorem clearFrame_events (s : State) : (clearFrame s).events = s.events := rfl

/-! ### setDuty -/

@[simp] theorem setDuty_asm_state (u : Num) (s : State) : (setDuty u s).asm_state = s.asm_state := rfl
@[simp] theorem setDuty_asm_idx (u : Num) (s : State) : (setDuty u s).asm_idx = s.asm_idx := rfl
@[simp] theorem setDuty_buf (u : Num) (s : State) : (setDuty u s).buf = s.buf := rfl
@[simp] theorem setDuty_rpm_q6 (u : Num) (s : State) : (setDuty u s).rpm_q6 = s.rpm_q6 := rfl
@[simp] theorem setDuty_rot_last_ms (u : Num) (s : State) : (setDuty u s).rot_last_ms = s.rot_last_ms := rfl
@[simp] theorem setDuty_rot_period_ms (u : Num) (s : State) : (setDuty u s).rot_period_ms = s.rot_period_ms := rfl
@[simp] theorem setDuty_sp_q6 (u : Num) (s : State) : (setDuty u s).sp_q6 = s.sp_q6 := rfl
@[simp] theorem setDuty_kp_u (u : Num) (s : State) : (setDuty u s).kp_u = s.kp_u := rfl
@[simp] theorem setDuty_ki_u (u : Num) (s : State) : (setDuty u s).ki_u = s.ki_u := rfl
@[simp] theorem setDuty_kd_u (u : Num) (s : State) : (setDuty u s).kd_u = s.kd_u := rfl
@[simp] theorem setDuty_period_ms (u : Num) (s : State) : (setDuty u s).period_ms = s.period_ms := rfl
@[simp] theorem setDuty_pid_I (u : Num) (s : State) : (setDuty u s).pid_I = s.pid_I := rfl
@[simp] theorem setDuty_y_prev_q6 (u : Num) (s : State) : (setDuty u s).y_prev_q6 = s.y_prev_q6 := rfl
@[simp] theorem setDuty_e_prev_q6 (u : Num) (s : State) : (setDuty u s).e_prev_q6 = s.e_prev_q6 := rfl
@[simp] theorem setDuty_pid_out (u : Num) (s : State) : (setDuty u s).pid_out = s.pid_out := rfl
@[simp] theorem setDuty_pid_last_ms (u : Num) (s : State) : (setDuty u s).pid_last_ms = s.pid_last_ms := rfl
@[simp] theorem setDuty_motor_en (u : Num) (s : State) : (setDuty u s).motor_en = s.motor_en := rfl
@[simp] theorem setDuty_pwm_duty (u : Num) (s : State) : (setDuty u s).pwm_duty = u := rfl
@[simp] theorem setDuty_wd_count (u : Num) (s : State) : (setDuty u s).wd_count = s.wd_count := rfl
@[simp] theorem setDuty_wd_last_ms (u : Num) (s : State) : (setDuty u s).wd_last_ms = s.wd_last_ms := rfl
@[simp] theorem setDuty_params (u : Num) (s : State) : (setDuty u s).params = s.params := rfl
@[simp] theorem setDuty_pending (u : Num) (s : State) : (setDuty u s).pending = s.pending := rfl
@[simp] theorem setDuty_now (u : Num) (s : State) : (setDuty u s).now = s.now := rfl
@[simp] theorem setDuty_response (u : Num) (s : State) : (setDuty u s).response = s.response := rfl
@[simp] theorem setDuty_events (u : Num) (s : State) : (setDuty u s).events = s.events ++ [.pwm u] := rfl

/-- `answerError` is a response with value 0. -/
@[simp] theorem answerError_eq (st : Status) (s : State) : answerError st s = respond st 0#32 s := rfl

end Sys2Proof.Machine
end

