-- ==== Sys2Proof/Laws/Ops.lean ====
section
/-! SUPPORT. What each shared operation and each step of a unit can do, said once. -/

namespace Sys2Proof.Machine

/-! ### Buffer operations keep the canonical form -/

theorem memWrite_wf {i : Nat} {v : Byte} {s t : State} (h : s.buf.wf) (ht : memWrite i v s = .ok t) : t.buf.wf := by
  rcases memWrite_cases i v s with ⟨hi, he⟩ | ⟨-, he⟩
  · rw [he] at ht
    cases ht
    exact Memory.write_wf v h hi
  · rw [he] at ht
    cases ht

theorem clearFrame_wf (s : State) : (clearFrame s).buf.wf := Memory.wf_nil

/-! ### The frame-complete pipeline -/

/-- Everything the pipeline can do: reject by checksum, reject by index, or decode. -/
theorem frameComplete_cases (s : State) :
    (validate s.buf = false ∧ frameComplete s = (false, emit (failureEvent 1#2) s)) ∨
      (validate s.buf = true ∧ s.params.idxPolicy = .reject ∧ indexInRange s.buf = false ∧
        frameComplete s = (false, emit (failureEvent 2#2) s)) ∨
      (validate s.buf = true ∧ (s.params.idxPolicy = .accept ∨ indexInRange s.buf = true) ∧
        frameComplete s = (true, decodeFrame s)) := by
  cases hv : validate s.buf
  · exact .inl ⟨rfl, by simp [frameComplete, hv]⟩
  · refine .inr ?_
    cases hp : s.params.idxPolicy <;> cases hr : indexInRange s.buf <;> simp [frameComplete, hv, hp, hr]

/-- Rotation timing writes two registers, and only at a group-0 frame. -/
theorem updateRotation_cases (s : State) :
    (firstAngle s.buf = 0 ∧
        updateRotation s = { s with rot_period_ms := elapsed s.now s.rot_last_ms, rot_last_ms := s.now }) ∨
      (firstAngle s.buf ≠ 0 ∧ updateRotation s = s) := by
  by_cases h : firstAngle s.buf = 0 <;> simp [updateRotation, h]

/-- What decoding a frame leaves: the speed, the rotation registers, five more events, and nothing else. -/
theorem decodeFrame_eq (s : State) :
    decodeFrame s =
      { s with
        rpm_q6 := frameSpeed s.buf
        rot_period_ms := if firstAngle s.buf = 0 then elapsed s.now s.rot_last_ms else s.rot_period_ms
        rot_last_ms := if firstAngle s.buf = 0 then s.now else s.rot_last_ms
        events := s.events ++ acceptedEvents s.buf } := by
  rcases updateRotation_cases s with ⟨h, he⟩ | ⟨h, he⟩ <;> simp [decodeFrame, he, h]

/-! ### The assembler -/

/-- A byte while seeking. -/
theorem seekByte_cases (b : Byte) (s : State) :
    (b = Config.START_MARKER ∧
        seekByte b s = { s with buf := s.buf.write 0 b, asm_idx := 1#5, asm_state := .accumulating }) ∨
      (b ≠ Config.START_MARKER ∧ seekByte b s = s) := by
  by_cases h : b = Config.START_MARKER <;> simp [seekByte, h]

/-- The cursor's move: an ordinary one, or the end of a frame. -/
theorem advanceFrame_cases (s : State) :
    ((s.asm_idx + 1#5).toNat ≠ 22 ∧
        advanceFrame s = respond .ok (feedByteValue false false) { s with asm_idx := s.asm_idx + 1#5 }) ∨
      ((s.asm_idx + 1#5).toNat = 22 ∧
        advanceFrame s =
          respond .ok (feedByteValue (frameComplete { s with asm_idx := s.asm_idx + 1#5 }).1 true)
            (clearFrame (frameComplete { s with asm_idx := s.asm_idx + 1#5 }).2)) := by
  by_cases h : (s.asm_idx + 1#5).toNat = Config.FRAME_LEN
  · exact .inr ⟨h, by simp only [advanceFrame]; rw [if_pos h]⟩
  · exact .inl ⟨h, by simp only [advanceFrame]; rw [if_neg h]⟩

/-- Everything FEED_BYTE can do. -/
theorem execFeedByte_cases (b : Byte) (s : State) :
    (s.asm_state = .seekingStart ∧
        execFeedByte b s = .next (respond .ok (feedByteValue false false) (seekByte b s))) ∨
      (s.asm_state = .accumulating ∧ s.asm_idx.toNat < 22 ∧
        execFeedByte b s = .next (advanceFrame { s with buf := s.buf.write s.asm_idx.toNat b })) ∨
      (s.asm_state = .accumulating ∧ 22 ≤ s.asm_idx.toNat ∧
        execFeedByte b s = .fault (.bufferOffset s.asm_idx.toNat)) := by
  cases hs : s.asm_state
  · exact .inl ⟨rfl, by simp [execFeedByte, hs]⟩
  · refine .inr ?_
    rcases memWrite_cases s.asm_idx.toNat b s with ⟨h, he⟩ | ⟨h, he⟩
    · exact .inl ⟨rfl, h, by simp [execFeedByte, hs, he]⟩
    · exact .inr ⟨rfl, h, by simp [execFeedByte, hs, he]⟩

/-- What the frame-complete pipeline leaves alone: the assembler, the buffer, the regulator and the watchdog. -/
theorem frameComplete_frame (s : State) :
    let t := (frameComplete s).2
    t.asm_state = s.asm_state ∧ t.asm_idx = s.asm_idx ∧ t.buf = s.buf ∧ t.sp_q6 = s.sp_q6 ∧ t.kp_u = s.kp_u ∧
      t.ki_u = s.ki_u ∧ t.kd_u = s.kd_u ∧ t.period_ms = s.period_ms ∧ t.pid_I = s.pid_I ∧
      t.y_prev_q6 = s.y_prev_q6 ∧ t.e_prev_q6 = s.e_prev_q6 ∧ t.pid_out = s.pid_out ∧
      t.pid_last_ms = s.pid_last_ms ∧ t.motor_en = s.motor_en ∧ t.pwm_duty = s.pwm_duty ∧
      t.wd_count = s.wd_count ∧ t.wd_last_ms = s.wd_last_ms ∧ t.params = s.params ∧ t.pending = s.pending ∧
      t.now = s.now := by
  rcases frameComplete_cases s with ⟨-, he⟩ | ⟨-, -, -, he⟩ | ⟨-, -, he⟩ <;> rw [he]
  · simp
  · simp
  · rw [decodeFrame_eq]
    simp

/-! ### The PWM driver and the PID step -/

/-- The driver emits exactly where the duty changes. -/
theorem driveDuty_cases (u : Num) (s : State) :
    (u ≠ s.pwm_duty ∧ driveDuty u s = setDuty u s) ∨ (u = s.pwm_duty ∧ driveDuty u s = s) := by
  by_cases h : u = s.pwm_duty
  · exact .inr ⟨h, by simp [driveDuty, h]⟩
  · exact .inl ⟨h, by simp [driveDuty, h]⟩

/-- What driving a duty leaves: the level is the duty, an event where it changed, and nothing else. -/
theorem driveDuty_eq (u : Num) (s : State) :
    driveDuty u s =
      { s with pwm_duty := u, events := if u = s.pwm_duty then s.events else s.events ++ [.pwm u] } := by
  rcases driveDuty_cases u s with ⟨h, he⟩ | ⟨h, he⟩
  · simp [he, h, setDuty, emit]
  · subst h
    simp [he]

/-- What an effective compute leaves. -/
theorem pidCompute_eq (s : State) :
    pidCompute s =
      { s with
        pid_last_ms := s.now
        pid_I := integralTerm s
        y_prev_q6 := s.rpm_q6
        e_prev_q6 := errorQ6 s
        pid_out := pidOutput s
        pwm_duty := pidOutput s
        events := if pidOutput s = s.pwm_duty then s.events else s.events ++ [.pwm (pidOutput s)] } := by
  simp [pidCompute, driveDuty_eq]

theorem pidStep_cases (s : State) :
    (pidDue s = true ∧ pidStep s = (true, pidCompute s)) ∨ (pidDue s = false ∧ pidStep s = (false, s)) := by
  cases h : pidDue s <;> simp [pidStep, h]

/-- What the PID step leaves alone, whether it computes or not. -/
theorem pidStep_frame (s : State) :
    let t := (pidStep s).2
    t.asm_state = s.asm_state ∧ t.asm_idx = s.asm_idx ∧ t.buf = s.buf ∧ t.rpm_q6 = s.rpm_q6 ∧
      t.rot_last_ms = s.rot_last_ms ∧ t.rot_period_ms = s.rot_period_ms ∧ t.sp_q6 = s.sp_q6 ∧ t.kp_u = s.kp_u ∧
      t.ki_u = s.ki_u ∧ t.kd_u = s.kd_u ∧ t.period_ms = s.period_ms ∧ t.motor_en = s.motor_en ∧
      t.wd_count = s.wd_count ∧ t.wd_last_ms = s.wd_last_ms ∧ t.params = s.params ∧ t.pending = s.pending ∧
      t.now = s.now := by
  rcases pidStep_cases s with ⟨-, he⟩ | ⟨-, he⟩ <;> rw [he]
  · rw [pidCompute_eq]
    simp
  · simp

/-- When a compute is due. -/
theorem pidDue_iff (s : State) :
    pidDue s = true ↔ s.motor_en = true ∧ s.period_ms.toNat ≤ (elapsed s.now s.pid_last_ms).toNat := by
  simp [pidDue]

/-- The output is in [0, 1]. -/
theorem pidOutput_mem (s : State) : 0 ≤ pidOutput s ∧ pidOutput s ≤ 1 :=
  ⟨clamp01_nonneg _, clamp01_le_one _⟩

/-- Under `INTEGRAL_CLAMP` the integral term is in [0, 1]. -/
theorem integralTerm_mem {s : State} (h : s.params.antiWindup = .integralClamp) :
    0 ≤ integralTerm s ∧ integralTerm s ≤ 1 := by
  simp only [integralTerm, h]
  exact ⟨clamp01_nonneg _, clamp01_le_one _⟩

/-! ### The watchdog step -/

theorem wdStep_cases (s : State) :
    (wdDue s = true ∧ wdStep s = (true, wdCheck s)) ∨ (wdDue s = false ∧ wdStep s = (false, s)) := by
  cases h : wdDue s <;> simp [wdStep, h]

/-- What the watchdog step writes: its two registers, and nothing else. -/
theorem wdStep_eq (s : State) :
    wdStep s =
      (wdDue s, { s with
        wd_last_ms := if wdDue s then s.now else s.wd_last_ms
        wd_count := if wdDue s then wdNextCount s else s.wd_count }) := by
  rcases wdStep_cases s with ⟨h, he⟩ | ⟨h, he⟩ <;> rw [he] <;> simp [h, wdCheck]

theorem wdDue_iff (s : State) :
    wdDue s = true ↔ s.params.wdIntervalMs ≤ (elapsed s.now s.wd_last_ms).toNat := by
  simp [wdDue]

/-- TICK, unfolded once. -/
theorem execTick_eq (s : State) :
    execTick s =
      .next (respond .ok
        (tickValue (pidStep s).1 (wdStep (pidStep s).2).1 (wdFault (wdStep (pidStep s).2).2))
        (wdStep (pidStep s).2).2) := rfl

end Sys2Proof.Machine
end

