-- ==== Sys2Proof/Laws/PerInstr.lean ====
section
/-! SUPPORT. Statements made per instruction. EncodesItsRow: the encoder's word belongs to the row of
spec/opcode_table.json that the instruction's mnemonic names. -/

namespace Sys2Proof.Laws.EncodesItsRow

/-- The word of `i` belongs to the table's row of `i`'s mnemonic. -/
def Statement (i : Instr) : Prop := ∃ r ∈ opcodeTable, r.mnemonic = i.mnemonic ∧ r.matches (encode i) = true

/-- A row of format F0: the mask is all ones and the pattern is the word itself. -/
theorem format_f0 {i : Instr} {m : String} {w : CommandWord} (hi : i.mnemonic = m) (hw : encode i = w)
    (hr : ⟨m, w, BitVec.allOnes 104⟩ ∈ opcodeTable) : Statement i :=
  ⟨_, hr, hi.symm, by rw [OpcodeRow.matches, hw, BitVec.and_allOnes]; exact beq_self_eq_true w⟩

/-- A row whose mask is made of fields: the word matches where its masked fields are the pattern's. -/
theorem of_fields {i : Instr} {m : String} {o o' : Byte} {a b c a' b' c' : U32} (hi : i.mnemonic = m)
    (hw : encode i = packWord o a b c)
    (hr : ⟨m, packWord (o &&& o') (a &&& a') (b &&& b') (c &&& c'), packWord o' a' b' c'⟩ ∈ opcodeTable) :
    Statement i :=
  ⟨_, hr, hi.symm, by simp [OpcodeRow.matches, hw, packWord_and]⟩

theorem feedByte (b : Byte) : Statement (.feedByte b) := by
  refine of_fields (m := "FEED_BYTE") (o' := 0xFF#8) (a' := 0xFFFFFF00#32) (b' := 0xFFFFFFFF#32) (c' := 0xFFFFFFFF#32) rfl rfl ?_
  have h : b.setWidth 32 &&& 0xFFFFFF00#32 = 0#32 := by revert b; decide
  rw [h]
  decide

theorem tick : Statement .tick := format_f0 rfl rfl (by decide)

theorem enable : Statement .enable := format_f0 rfl rfl (by decide)

theorem disable : Statement .disable := format_f0 rfl rfl (by decide)

theorem setTarget (a : U32) : Statement (.setTarget a) := by
  refine of_fields (m := "SET_TARGET") (o' := 0xFF#8) (a' := 0#32) (b' := 0xFFFFFFFF#32) (c' := 0xFFFFFFFF#32) rfl rfl ?_
  rw [BitVec.and_zero]
  decide

theorem setTunings (kp ki kd : U32) : Statement (.setTunings kp ki kd) := by
  refine of_fields (m := "SET_TUNINGS") (o' := 0xFF#8) (a' := 0#32) (b' := 0#32) (c' := 0#32) rfl rfl ?_
  rw [BitVec.and_zero, BitVec.and_zero, BitVec.and_zero]
  decide

theorem setPeriod (ms : U32) : Statement (.setPeriod ms) := by
  refine of_fields (m := "SET_PERIOD") (o' := 0xFF#8) (a' := 0#32) (b' := 0xFFFFFFFF#32) (c' := 0xFFFFFFFF#32) rfl rfl ?_
  rw [BitVec.and_zero]
  decide

theorem getRpm : Statement .getRpm := format_f0 rfl rfl (by decide)

theorem getEnabled : Statement .getEnabled := format_f0 rfl rfl (by decide)

theorem getRotPeriod : Statement .getRotPeriod := format_f0 rfl rfl (by decide)

end Sys2Proof.Laws.EncodesItsRow
end

