-- ==== Sys2Proof/Laws/Step.lean ====
section
/-! SUPPORT. What one step can do, said once, and the induction over a run packaged once. -/

namespace Sys2Proof.Machine

theorem step_idle {s : State} (h : s.pending = []) : step s = .next s := by
  simp [step, State.nextInput, h, idle]

theorem step_reset {s : State} {rest : List Input} (h : s.pending = .reset :: rest) :
    step s = .next (applyReset rest s) := by
  simp [step, State.nextInput, h]

theorem step_command {s : State} {w : CommandWord} {t : U32} {rest : List Input} {i : Instr}
    (h : s.pending = .command w t :: rest) (hd : decode w = .ok i) :
    step s = exec i (beginCommand t rest s) := by
  simp [step, State.nextInput, h, hd]

theorem step_illegal {s : State} {w : CommandWord} {t : U32} {rest : List Input} {e : DecodeError}
    (h : s.pending = .command w t :: rest) (hd : decode w = .error e) :
    step s = .next (answerError .illegal (beginCommand t rest s)) := by
  simp [step, State.nextInput, h, hd]

/-- Everything a step can do. -/
theorem step_cases (s : State) :
    (s.pending = [] ∧ step s = .next s) ∨
      (∃ rest, s.pending = .reset :: rest ∧ step s = .next (applyReset rest s)) ∨
      (∃ w t rest i, s.pending = .command w t :: rest ∧ decode w = .ok i ∧
        step s = exec i (beginCommand t rest s)) ∨
      (∃ w t rest e, s.pending = .command w t :: rest ∧ decode w = .error e ∧
        step s = .next (answerError .illegal (beginCommand t rest s))) := by
  match hp : s.pending with
  | [] => exact .inl ⟨rfl, step_idle hp⟩
  | .reset :: rest => exact .inr (.inl ⟨rest, rfl, step_reset hp⟩)
  | .command w t :: rest =>
    cases hd : decode w with
    | ok i => exact .inr (.inr (.inl ⟨w, t, rest, i, rfl, hd, step_command hp hd⟩))
    | error e => exact .inr (.inr (.inr ⟨w, t, rest, e, rfl, hd, step_illegal hp hd⟩))

/-- `k + 1` steps are one step and then `k`. -/
theorem run_succ (k : Nat) (s : State) :
    Sys2Proof.core.run (k + 1) s =
      match step s with
      | .next t => Sys2Proof.core.run k t
      | .fault f => .fault f
      | .refused r => .refused r := by
  cases h : step s <;> (have hc : Sys2Proof.core.step s = _ := h; simp only [Host.Core.run, hc])

/-- What every step keeps from `P` on, every run keeps. -/
theorem run_keeps {P : State → Prop} (hstep : ∀ s t, P s → step s = .next t → P t) :
    ∀ (k : Nat) (s t : State), P s → Sys2Proof.core.run k s = .next t → P t
  | 0, s, t, hs, h => by
    have : (Host.Outcome.next s : Host.Outcome State Fault Refusal) = .next t := h
    cases this
    exact hs
  | k + 1, s, t, hs, h => by
    rw [run_succ] at h
    cases hk : step s with
    | next u => exact run_keeps hstep k u t (hstep s u hs hk) (by rw [hk] at h; exact h)
    | fault f => rw [hk] at h; cases h
    | refused r => rw [hk] at h; cases h

end Sys2Proof.Machine
end

