-- ==== Sys2Proof/Machine/CommandText.lean ====
section
/-! DEFINITION. The characters of the textual command stream (30_encoding.md R88, R89): reading a line, and writing a
command word as 26 hex digits. The block never sees a character; the space characters around an operand are the model's
reading of `ws` (log 18). -/

namespace Sys2Proof.Machine

/-- A digit of the radix, upper or lower case. -/
def digitOf (radix : Nat) (c : Char) : Option Nat :=
  let n := c.toNat
  let d :=
    if 48 ≤ n ∧ n ≤ 57 then n - 48
    else if 65 ≤ n ∧ n ≤ 70 then n - 55
    else if 97 ≤ n ∧ n ≤ 102 then n - 87
    else radix
  if d < radix then some d else none

/-- At least one digit, the most significant first. -/
def readNat (radix : Nat) (cs : List Char) : Option Nat :=
  if cs.isEmpty then none
  else (cs.mapM (digitOf radix)).map (·.foldl (fun acc d => acc * radix + d) 0)

/-- `value ::= decimal | "-" decimal | "0x" hex` (R88). -/
def readValue : List Char → Option Int
  | '-' :: ds => (readNat 10 ds).map fun n => -(n : Int)
  | '0' :: 'x' :: ds => (readNat 16 ds).map fun n => (n : Int)
  | ds => (readNat 10 ds).map fun n => (n : Int)

/-- The characters without the spaces before and after them. -/
def trim (cs : List Char) : List Char :=
  ((cs.dropWhile (· == ' ')).reverse.dropWhile (· == ' ')).reverse

/-- `operands ::= value ("," value)*`, none where nothing is written (R88). -/
def readOperands (cs : List Char) : Option (List Int) :=
  if (trim cs).isEmpty then some [] else (cs.splitOn ',').mapM fun v => readValue (trim v)

/-- The command of a mnemonic and its operands (R88). -/
def readCommand (m : String) (vs : List Int) : Option StreamCommand :=
  match vs with
  | [] =>
    if m = "TICK" then some .tick
    else if m = "ENABLE" then some .enable
    else if m = "DISABLE" then some .disable
    else if m = "GET_RPM" then some .getRpm
    else if m = "GET_ENABLED" then some .getEnabled
    else if m = "GET_ROT_PERIOD" then some .getRotPeriod
    else none
  | [v] =>
    if m = "FEED_BYTE" then some (.feedByte v)
    else if m = "SET_TARGET" then some (.setTarget v)
    else if m = "SET_PERIOD" then some (.setPeriod v)
    else none
  | [kp, ki, kd] => if m = "SET_TUNINGS" then some (.setTunings kp ki kd) else none
  | _ => none

/-- The line or pseudo-command of a mnemonic and its operands at the clock sample `t` (R88, R89). -/
def readMnemonic (t : Nat) (m : String) (vs : List Int) : Option PseudoLine :=
  if m = "FEED_FRAME" then some (.feedFrame t vs)
  else if m = "FEED_BYTES" then some (.feedBytes t vs)
  else if m = "SET_TARGET_RPM" then
    match vs with
    | [r] => some (.setTargetRpm t r)
    | _ => none
  else if m = "TICKS" then
    match vs with
    | [n, d] => if 0 ≤ n ∧ 0 ≤ d then some (.ticks t n.toNat d.toNat) else none
    | _ => none
  else if m = "SET_DEFAULT_TUNINGS" then
    match vs with
    | [] => some (.setDefaultTunings t)
    | _ => none
  else (readCommand m vs).map fun c => .line ⟨t, c⟩

/-- `line ::= "@" now ws mnemonic [ws operands]` (R88). -/
def readLine : List Char → Option PseudoLine
  | '@' :: cs =>
    let now := cs.takeWhile (· != ' ')
    let rest := (cs.dropWhile (· != ' ')).dropWhile (· == ' ')
    let mnemonic := rest.takeWhile (· != ' ')
    let operands := rest.dropWhile (· != ' ')
    match readNat 10 now, readOperands operands with
    | some t, some vs => readMnemonic t (String.ofList mnemonic) vs
    | _, _ => none
  | _ => none

/-- The inputs of a text of lines, empty lines skipped; none where a line cannot be read or is ill-formed. -/
def assembleText (text : String) : Option (List Input) :=
  (((text.toList.splitOn '\n').filter fun cs => !(trim cs).isEmpty).mapM fun cs => readLine (trim cs)).bind
    assembleStream

/-- The character of a hex digit. -/
def hexDigit (d : Nat) : Char := if d < 10 then Char.ofNat (48 + d) else Char.ofNat (55 + d)

/-- The 26 hex digits of a command word, `OP` first (R88). -/
def hexDigits (w : CommandWord) : List Char :=
  (List.range 26).map fun i => hexDigit ((w >>> (4 * (25 - i))).toNat % 16)

/-- The digits in the groups `OP A B C` (R88, 95_test_vectors.md). -/
def writeWord (w : CommandWord) : String :=
  let d := hexDigits w
  String.ofList (d.take 2 ++ ' ' :: (d.drop 2).take 8 ++ ' ' :: (d.drop 10).take 8 ++ ' ' :: (d.drop 18).take 8)

end Sys2Proof.Machine
end

