-- ==== Sys2Proof/Tests/Slice0.lean ====
section
/-! SUPPORT. Tests against values written out from the spec (30_encoding.md, 95_test_vectors.md), and for every
statement with hypotheses a witness that meets them all. -/

namespace Sys2Proof.Tests

open Sys2Proof Sys2Proof.Machine

/-! ### Helpers -/

/-- The next state of an outcome. -/
def nextOf : Host.Outcome State Fault Refusal → Option State
  | .next t => some t
  | _ => none

/-- A buffer that holds the given bytes from offset 0 on. -/
def bufOf (bytes : List Byte) : Memory := ((List.range bytes.length).zip bytes).filter fun c => c.2 != 0#8

/-- Frame F1 of 95_test_vectors.md. -/
def f1 : List Byte :=
  [0xFA#8, 0xA0#8, 0x00#8, 0x4B#8, 0x00#8, 0x00#8, 0x00#8, 0x00#8, 0x00#8, 0x00#8, 0x00#8,
    0x00#8, 0x00#8, 0x00#8, 0x00#8, 0x00#8, 0x00#8, 0x00#8, 0x00#8, 0x00#8, 0x19#8, 0x77#8]

/-- Frame F2 of 95_test_vectors.md. -/
def f2 : List Byte :=
  [0xFA#8, 0xA1#8, 0x20#8, 0x4B#8, 0xE8#8, 0x03#8, 0x34#8, 0x12#8, 0x10#8, 0x80#8, 0x55#8,
    0x55#8, 0x20#8, 0x41#8, 0x66#8, 0x00#8, 0xFF#8, 0xFF#8, 0xFF#8, 0xFF#8, 0x44#8, 0x7A#8]

/-- Frame F3 of 95_test_vectors.md: the last group. -/
def f3 : List Byte :=
  [0xFA#8, 0xF9#8, 0x00#8, 0x4B#8, 0xFF#8, 0x3F#8, 0xFF#8, 0xFF#8, 0x00#8, 0x00#8, 0x01#8,
    0x00#8, 0x01#8, 0x01#8, 0x00#8, 0x01#8, 0x64#8, 0x00#8, 0xC8#8, 0x00#8, 0x26#8, 0x06#8]

/-- Frame F4 of 95_test_vectors.md: the index above the range. -/
def f4 : List Byte :=
  [0xFA#8, 0xFA#8, 0x00#8, 0x4B#8, 0x00#8, 0x00#8, 0x00#8, 0x00#8, 0x00#8, 0x00#8, 0x00#8,
    0x00#8, 0x00#8, 0x00#8, 0x00#8, 0x00#8, 0x00#8, 0x00#8, 0x00#8, 0x00#8, 0x81#8, 0x78#8]

/-- The state before the last byte of a frame. -/
def beforeLast (frame : List Byte) (now : U32) : State :=
  { State.reset with asm_state := .accumulating, asm_idx := 21#5, buf := bufOf (frame.take 21), now := now }

/-- The motor is enabled, the clock sample is `now`. -/
def enabledAt (now : U32) : State := { State.reset with motor_en := true, now := now }

/-- The state `s` with other parameters. -/
def withPolicy (p : IdxPolicy) (s : State) : State := { s with params := { s.params with idxPolicy := p } }

/-- The state `s` with the given `NUMERICS`. -/
def withNumerics (n : Numerics) (s : State) : State := { s with params := { s.params with numerics := n } }

/-! ### Decoding: words written out from 30_encoding.md R71, R72, R81 -/

theorem test_decode_feedByte : decode 0x01000000FA0000000000000000#104 = .ok (.feedByte 0xFA#8) := by decide
theorem test_decode_tick : decode 0x02000000000000000000000000#104 = .ok .tick := by decide
theorem test_decode_enable : decode 0x03000000000000000000000000#104 = .ok .enable := by decide
theorem test_decode_disable : decode 0x04000000000000000000000000#104 = .ok .disable := by decide
theorem test_decode_setTarget : decode 0x0500003E800000000000000000#104 = .ok (.setTarget 16000#32) := by decide
theorem test_decode_setTunings :
    decode 0x0600001770000007D000000001#104 = .ok (.setTunings 6000#32 2000#32 1#32) := by decide
theorem test_decode_setPeriod : decode 0x07000000320000000000000000#104 = .ok (.setPeriod 50#32) := by decide
theorem test_decode_getRpm : decode 0x08000000000000000000000000#104 = .ok .getRpm := by decide
theorem test_decode_getEnabled : decode 0x09000000000000000000000000#104 = .ok .getEnabled := by decide
theorem test_decode_getRotPeriod : decode 0x0A000000000000000000000000#104 = .ok .getRotPeriod := by decide

/-- The table's numbering of a word's bits is R71's. -/
theorem test_decodeTableWord : decodeTableWord 104 0x0500003E800000000000000000 = some (.setTarget 16000#32) := by decide

/-- Bits from `nbits` up are zero. -/
theorem test_decodeTableWord_short : decodeTableWord 96 0x0200000000000000000000000F = none := by decide

/-! ### Well-formedness: an ill-formed term for each check, refused -/

/-- The word is refused by the well-formedness check and by the decoder, by name. -/
def refused (w : CommandWord) (e : DecodeError) : Bool :=
  !w.wellFormed && decide (decode w = .error e)

theorem test_reserved_opcodes_refused :
    refused 0x00000000000000000000000000#104 (.reservedOpcode 0x00#8) = true ∧
      refused 0x0B000000000000000000000000#104 (.reservedOpcode 0x0B#8) = true ∧
      refused 0xFF000000000000000000000000#104 (.reservedOpcode 0xFF#8) = true := by decide

theorem test_format_fb_zero_fields_refused :
    refused 0x01000001FA0000000000000000#104 (.nonzeroField 0x01#8) = true ∧
      refused 0x01800000000000000000000000#104 (.nonzeroField 0x01#8) = true ∧
      refused 0x01000000FA0000000100000000#104 (.nonzeroField 0x01#8) = true ∧
      refused 0x01000000FA0000000000000001#104 (.nonzeroField 0x01#8) = true := by decide

theorem test_format_f0_zero_fields_refused :
    refused 0x02000000010000000000000000#104 (.nonzeroField 0x02#8) = true ∧
      refused 0x03000000000000000100000000#104 (.nonzeroField 0x03#8) = true ∧
      refused 0x04000000000000000000000001#104 (.nonzeroField 0x04#8) = true ∧
      refused 0x08800000000000000000000000#104 (.nonzeroField 0x08#8) = true ∧
      refused 0x09000000008000000000000000#104 (.nonzeroField 0x09#8) = true ∧
      refused 0x0A000000000000000080000000#104 (.nonzeroField 0x0A#8) = true := by decide

theorem test_format_fw_zero_fields_refused :
    refused 0x05000000000000000100000000#104 (.nonzeroField 0x05#8) = true ∧
      refused 0x05000000000000000000000001#104 (.nonzeroField 0x05#8) = true ∧
      refused 0x07000000320000000100000000#104 (.nonzeroField 0x07#8) = true ∧
      refused 0x07000000320000000000000001#104 (.nonzeroField 0x07#8) = true := by decide

/-- A setpoint default of 0, of 2^31, and a period default of 0 (10_state.md R28, R30). -/
theorem test_params_refused :
    ({ Params.default with spResetQ6 := 0#32 } : Params).wf = false ∧
      ({ Params.default with spResetQ6 := 0x80000000#32 } : Params).wf = false ∧
      ({ Params.default with periodResetMs := 0#32 } : Params).wf = false := by decide

/-- A line's clock sample and each operand past the end of its range (30_encoding.md R72 to R76, R88). -/
theorem test_stream_lines_refused :
    (StreamLine.mk (2 ^ 32) .tick).assemble = none ∧
      (StreamLine.mk 0 (.feedByte 256)).assemble = none ∧
      (StreamLine.mk 0 (.feedByte (-1))).assemble = none ∧
      (StreamLine.mk 0 (.setTarget (2 ^ 31))).assemble = none ∧
      (StreamLine.mk 0 (.setTarget (-(2 ^ 31) - 1))).assemble = none ∧
      (StreamLine.mk 0 (.setTunings (2 ^ 32) 0 0)).assemble = none ∧
      (StreamLine.mk 0 (.setTunings 0 (-1) 0)).assemble = none ∧
      (StreamLine.mk 0 (.setTunings 0 0 (2 ^ 32))).assemble = none ∧
      (StreamLine.mk 0 (.setPeriod (2 ^ 32))).assemble = none := by decide

/-- A frame of 21 bytes, no byte at all, and a speed that is no multiple of 1/64 RPM (30_encoding.md R89). -/
theorem test_pseudo_lines_refused :
    (PseudoLine.feedFrame 0 (List.replicate 21 0)).wf = false ∧ (PseudoLine.feedBytes 0 []).wf = false ∧
      (PseudoLine.setTargetRpm 0 (1 / 128)).wf = false := by decide +kernel

/-- TICKS 3, 20 at 2^32 - 20: the clock wraps (30_encoding.md R89). -/
theorem test_ticks_expand :
    (PseudoLine.ticks (2 ^ 32 - 20) 3 20).expand = [⟨2 ^ 32 - 20, .tick⟩, ⟨0, .tick⟩, ⟨20, .tick⟩] := by decide

/-- SET_TARGET_RPM 250 is SET_TARGET 16000 (30_encoding.md R89). -/
theorem test_setTargetRpm_expand :
    (PseudoLine.setTargetRpm 0 250).expand = [⟨0, .setTarget 16000⟩] := by decide +kernel

/-- The worked example of 30_encoding.md R88, V-CFG-1 and V-CFG-3 as text. -/
theorem test_text_assembles :
    assembleText "@0 FEED_BYTE 0xFA\n@0 SET_TARGET -5\n@7 SET_TUNINGS 3000, 1000, 0" =
      some [.command 0x01000000FA0000000000000000#104 0#32, .command 0x05FFFFFFFB0000000000000000#104 0#32,
        .command 0x0600000BB8000003E800000000#104 7#32] := by decide +kernel

/-- A line without its clock sample, an unknown mnemonic, an operand too many, a bad digit, an empty operand. -/
theorem test_text_refused :
    readLine "TICK".toList = none ∧ readLine "@0 TOCK".toList = none ∧ readLine "@0 TICK 1".toList = none ∧
      readLine "@0 SET_PERIOD 1A".toList = none ∧ readLine "@0 SET_TUNINGS 1,,3".toList = none := by decide +kernel

/-- P4's first word as 95_test_vectors.md writes it. -/
theorem test_writeWord :
    writeWord (encode (.setTarget 0xFFFFFFFB#32)) = "05 FFFFFFFB 00000000 00000000" := by decide +kernel

/-! ### One step of each instruction: values of 95_test_vectors.md -/

/-- V-DEC-1: F2's last byte. -/
theorem test_feedByte_decodes_f2 :
    (nextOf (exec (.feedByte 0x7A#8) (beforeLast f2 1000#32))).map (fun t => (t.rpm_q6, t.response, t.events.drop 1)) =
      some (19232#16, some ⟨.ok, 3#32⟩,
        [.sample ⟨4#16, 1000#14, 0x1234#16, 0#2⟩, .sample ⟨5#16, 0#14, 0#16, 2#2⟩,
          .sample ⟨6#16, 0#14, 0#16, 1#2⟩, .sample ⟨7#16, 0#14, 0#16, 3#2⟩]) := by decide

/-- V-DEC-4: F4's last byte under REJECT. -/
theorem test_feedByte_rejects_f4 :
    (nextOf (exec (.feedByte 0x78#8) (beforeLast f4 0#32))).map (fun t => (t.rpm_q6, t.response, t.events)) =
      some (0#16, some ⟨.ok, 1#32⟩, [.rawFrame ⟨false, 2#2, 0#16, 0#5, Vector.replicate 22 0#8⟩]) := by decide

/-- V-REG-1 at t = 20, from a motor enabled at 0. -/
theorem test_tick_computes :
    (nextOf (exec .tick (enabledAt 20#32))).map (fun t => (t.response, t.events, t.pid_I)) =
      some (some ⟨.ok, 4#32⟩, [.pwm (453 / 500)], 3 / 500) := by decide +kernel

/-- V-REG-7 at t = 20: the binary64 nearest 0.906, 0x1.cfdf3b645a1cbp-1. -/
theorem test_tick_rounds :
    (nextOf (exec .tick (withNumerics .binary64 (enabledAt 20#32)))).map (fun t => t.pid_out) =
      some (0x1cfdf3b645a1cb / 2 ^ 53) := by decide +kernel

/-- V-PWM-1: a first ENABLE emits PWM(0). -/
theorem test_enable :
    (nextOf (exec .enable State.reset)).map (fun t => (t.motor_en, t.response, t.events)) =
      some (true, some ⟨.ok, 0#32⟩, [.pwm 0]) := by decide +kernel

/-- V-PWM-2: ENABLE emits the output held since the last compute. -/
theorem test_enable_resumes :
    (nextOf (exec .enable { State.reset with pid_out := 453 / 500 })).map (fun t => t.events) =
      some [.pwm (453 / 500)] := by decide +kernel

/-- V-PWM-2: DISABLE forces the level to 0 and keeps the output. -/
theorem test_disable :
    (nextOf (exec .disable { enabledAt 21#32 with pid_out := 453 / 500, pwm_duty := 453 / 500 })).map
        (fun t => (t.motor_en, t.pwm_duty, t.pid_out, t.events)) =
      some (false, 0, 453 / 500, [.pwm 0]) := by decide +kernel

/-- V-CFG-1: -5 is replaced by the default. -/
theorem test_setTarget_substitutes :
    (nextOf (exec (.setTarget 0xFFFFFFFB#32) { State.reset with sp_q6 := 1#32 })).map (fun t => (t.sp_q6, t.response)) =
      some (19200#32, some ⟨.ok, 19200#32⟩) := by decide

/-- V-CFG-2. -/
theorem test_setTarget_stores :
    (nextOf (exec (.setTarget 16000#32) State.reset)).map (fun t => (t.sp_q6, t.response)) =
      some (16000#32, some ⟨.ok, 16000#32⟩) := by decide

/-- V-CFG-3 and P4: the three gains in their order. -/
theorem test_setTunings :
    (nextOf (exec (.setTunings 6000#32 2000#32 0xFFFFFFFF#32) State.reset)).map
        (fun t => (t.kp_u, t.ki_u, t.kd_u, t.response)) =
      some (6000#32, 2000#32, 4294967295#32, some ⟨.ok, 0#32⟩) := by decide

/-- V-CFG-4. -/
theorem test_setPeriod_rejects_zero :
    (nextOf (exec (.setPeriod 0#32) State.reset)).map (fun t => (t.period_ms, t.response)) =
      some (20#32, some ⟨.rejected, 0#32⟩) := by decide

/-- V-CFG-5. -/
theorem test_setPeriod_stores :
    (nextOf (exec (.setPeriod 50#32) State.reset)).map (fun t => (t.period_ms, t.response)) =
      some (50#32, some ⟨.ok, 0#32⟩) := by decide

/-- V-QRY-1: the speed zero-extended. -/
theorem test_getRpm :
    (nextOf (exec .getRpm { State.reset with rpm_q6 := 0xFFFF#16 })).map (fun t => t.response) =
      some (some ⟨.ok, 0x0000FFFF#32⟩) := by decide

/-- V-QRY-2. -/
theorem test_getEnabled :
    (nextOf (exec .getEnabled (enabledAt 0#32))).map (fun t => t.response) = some (some ⟨.ok, 1#32⟩) := by decide

/-- V-DEC-5: a measured rotation period. -/
theorem test_getRotPeriod :
    (nextOf (exec .getRotPeriod { State.reset with rot_period_ms := 200#32, rot_last_ms := 1200#32 })).map
        (fun t => t.response) = some (some ⟨.ok, 200#32⟩) := by decide

/-- V-ILL-2: a FEED_BYTE with bit 8 of A set does not feed 0xFA. -/
theorem test_step_illegal_word :
    (nextOf (step (State.reset.withFetchWord 104 0x01000001FA0000000000000000))).map
        (fun t => (t.asm_state, t.response, t.events)) =
      some (.seekingStart, some ⟨.illegal, 0#32⟩, []) := by decide

/-- V-ASM-1: the start marker, presented as the first command after reset. -/
theorem test_step_feedByte :
    (nextOf (step (State.reset.withFetchWord 104 0x01000000FA0000000000000000))).map
        (fun t => (t.asm_state, t.asm_idx, t.buf)) =
      some (.accumulating, 1#5, [(0, 0xFA#8)]) := by decide

/-- V-WDG-2: the band's edges are in band, one beyond each is not. -/
theorem test_band_edges :
    outOfBand 15359#16 19200#32 = true ∧ outOfBand 15360#16 19200#32 = false ∧
      outOfBand 21120#16 19200#32 = false ∧ outOfBand 21121#16 19200#32 = true := by decide

/-- V-VAL-1 and V-VAL-4: F1's sum, and the largest sum. -/
theorem test_checksum :
    checksumAcc (bufOf f1) = 0x18CF400 ∧ validate (bufOf f1) = true ∧
      checksumAcc (bufOf (List.replicate 20 0xFF#8)) = 0x3FEFC01 ∧ reduceChecksum 0x3FEFC01 = 0x03FE := by decide

/-! ### Witnesses: encoding and steps -/

theorem witness_EncodeInvertsDecode :
    decode 0x06FFFFFFFFFFFFFFFFFFFFFFFF#104 = .ok (.setTunings 0xFFFFFFFF#32 0xFFFFFFFF#32 0xFFFFFFFF#32) := by decide

theorem witness_LegalWordsAreTheTableRows : decode 0x01000000FF0000000000000000#104 = .ok (.feedByte 0xFF#8) := by
  decide

/-- A line of each operand form at the ends of its ranges, and one without operands. -/
theorem witness_CommandStreamLinesAssemble :
    (StreamLine.mk (2 ^ 32 - 1) (.setTarget (-(2 ^ 31)))).wf = true ∧
      (StreamLine.mk 0 (.setTarget (2 ^ 31 - 1))).wf = true ∧ (StreamLine.mk 0 (.feedByte 0)).wf = true ∧
      (StreamLine.mk 0 (.feedByte 255)).wf = true ∧ (StreamLine.mk 0 (.setTunings (2 ^ 32 - 1) 0 (2 ^ 32 - 1))).wf = true ∧
      (StreamLine.mk 0 (.setPeriod (2 ^ 32 - 1))).wf = true ∧ (StreamLine.mk 0 .getRotPeriod).wf = true := by decide

theorem witness_StepRunsTheDecodedCommand :
    ({ State.reset with pending := [.command (encode .tick) 5#32, .reset] } : State).pending =
        .command (encode .tick) 5#32 :: [.reset] ∧ decode (encode .tick) = .ok .tick := ⟨rfl, by decide⟩

/-- One illegal word of each kind. -/
theorem witness_IllegalWordsAreAnsweredWithNoEffect :
    IllegalWord 0x00000000000000000000000000#104 ∧ IllegalWord 0x0B000000000000000000000000#104 ∧
      IllegalWord 0x01000001FA0000000000000000#104 ∧ IllegalWord 0x02000000000000000000000001#104 ∧
      IllegalWord 0x05000000000000000100000000#104 := by
  refine ⟨.inl (by decide), .inr (.inl (by decide)), .inr (.inr (.inl (by decide))),
    .inr (.inr (.inr (.inl (by decide)))), .inr (.inr (.inr (.inr (by decide))))⟩

theorem witness_NothingPresentedNothingChanges : State.reset.pending = [] := rfl

theorem witness_ResetSetsEveryRegister :
    ({ enabledAt 7#32 with pending := [.reset] } : State).pending = .reset :: [] := rfl

theorem witness_ResetKeepsTheHostsInputs :
    ({ enabledAt 7#32 with pending := [.reset, .reset] } : State).pending = .reset :: [.reset] := rfl

theorem witness_PresentedTableWordRunsNext :
    decodeTableWord 104 0x02000000000000000000000000 = some .tick := by decide

/-! ### Witnesses: FEED_BYTE -/

theorem witness_SeekingWaitsForTheStartMarker :
    State.reset.asm_state = .seekingStart ∧ (0xA0#8 : Byte) ≠ 0xFA#8 := by decide

/-- The first and the last cursor before the last byte. -/
theorem witness_AccumulatingStoresAtTheCursor :
    let s := { beforeLast f1 0#32 with asm_idx := 1#5 }
    let t := { beforeLast f1 0#32 with asm_idx := 20#5 }
    s.asm_state = .accumulating ∧ s.asm_idx.toNat < 21 ∧ t.asm_state = .accumulating ∧ t.asm_idx.toNat < 21 := by
  decide

/-- One input for each clause: a stored marker, a stored byte, a discarded byte, a completed frame. -/
theorem witness_FeedByteWritesOneBufferByte :
    State.reset.buf.wf ∧ (∃ t, exec (.feedByte 0xFA#8) State.reset = .next t) ∧
      storedOffset 0xFA#8 State.reset = some 0 ∧
      storedOffset 0x19#8 { beforeLast f1 0#32 with asm_idx := 20#5 } = some 20 ∧
      (∃ t, exec (.feedByte 0x12#8) State.reset = .next t) ∧
      (beforeLast f1 0#32).buf.wf ∧ (beforeLast f1 0#32).asm_idx = 21#5 ∧
      ∃ t, exec (.feedByte 0x77#8) (beforeLast f1 0#32) = .next t :=
  ⟨by decide, ⟨_, rfl⟩, by decide, by decide, ⟨_, rfl⟩, by decide, by decide, ⟨_, rfl⟩⟩

/-- The first and the last cursor at which nothing exists. -/
theorem witness_CursorOutsideTheBufferStops :
    let s := { beforeLast f1 0#32 with asm_idx := 22#5 }
    let t := { beforeLast f1 0#32 with asm_idx := 31#5 }
    s.asm_state = .accumulating ∧ 22 ≤ s.asm_idx.toNat ∧ t.asm_state = .accumulating ∧ 22 ≤ t.asm_idx.toNat := by
  decide

theorem witness_TopChecksumBitNeverValidates : (Memory.read (bufOf (f1.take 21 ++ [0xF7#8])) 21).getLsbD 7 = true := by
  decide

/-- S3: F1 with its last byte 0x78. -/
theorem witness_ChecksumFailureChangesOnlyTheAssembler :
    let s := beforeLast f1 0#32
    s.asm_state = .accumulating ∧ s.asm_idx = 21#5 ∧ validate (s.buf.write 21 0x78#8) = false := by decide

/-- The index just above the range (F4) and just below it (F1's bytes with 0x9F, checksum 0x7715), under each
policy. -/
theorem witness_IndexOutOfRangeFollowsThePolicy :
    let s := beforeLast f4 0#32
    let low := [0xFA#8, 0x9F#8] ++ (f1.take 20).drop 2 ++ [0x15#8]
    let t := withPolicy .accept (beforeLast low 0#32)
    (s.asm_state = .accumulating ∧ s.asm_idx = 21#5 ∧ validate (s.buf.write 21 0x78#8) = true ∧
        0xF9 < ((s.buf.write 21 0x78#8).read 1).toNat ∧ s.params.idxPolicy = .reject) ∧
      (t.asm_state = .accumulating ∧ t.asm_idx = 21#5 ∧ validate (t.buf.write 21 0x77#8) = true ∧
        ((t.buf.write 21 0x77#8).read 1).toNat < 0xA0 ∧ t.params.idxPolicy = .accept) := by decide

/-- The first index, the last index, and an index out of range under ACCEPT. -/
theorem witness_AcceptedFrameIsDecoded :
    let s := beforeLast f1 1000#32
    let t := beforeLast f3 0#32
    let u := withPolicy .accept (beforeLast f4 0#32)
    (s.asm_state = .accumulating ∧ s.asm_idx = 21#5 ∧ validate (s.buf.write 21 0x77#8) = true ∧
        ((s.buf.write 21 0x77#8).read 1).toNat = 0xA0) ∧
      (validate (t.buf.write 21 0x06#8) = true ∧ ((t.buf.write 21 0x06#8).read 1).toNat = 0xF9) ∧
      (validate (u.buf.write 21 0x78#8) = true ∧ u.params.idxPolicy = .accept) := by decide

/-- The first and the last group, at the last quad. -/
theorem witness_SampleAnglesAreExact :
    0xA0 ≤ (Memory.read (bufOf f1) 1).toNat ∧ (Memory.read (bufOf f3) 1).toNat ≤ 0xF9 ∧
      (quadSample (bufOf f3) 3).angle = 359#16 := by decide

/-- Two states that share F1's first 21 bytes and differ in the motor and the setpoint. -/
theorem witness_DecodingDependsOnTheFrameAlone :
    let s := beforeLast f1 1000#32
    let s' := { beforeLast f1 1000#32 with motor_en := true, sp_q6 := 1#32 }
    s.asm_state = .accumulating ∧ s.asm_idx = 21#5 ∧ s'.asm_state = .accumulating ∧ s'.asm_idx = 21#5 ∧
      s.buf.wf ∧ s'.buf.wf ∧ (∀ a, a < 21 → s.buf.read a = s'.buf.read a) ∧ s.now = s'.now ∧
      s.rot_last_ms = s'.rot_last_ms ∧ s.params.idxPolicy = s'.params.idxPolicy ∧ s.buf.read 1 = 0xA0#8 := by
  refine ⟨rfl, rfl, rfl, rfl, by decide, by decide, fun a _ => rfl, rfl, rfl, rfl, by decide⟩

/-- F1 with one clock sample for all bytes. -/
theorem witness_TwentyTwoBytesMakeOneFrame :
    let frame : List (Byte × U32) := f1.map fun b => (b, 1000#32)
    let m := bufOf f1
    let s := { State.reset with pending := frame.map fun (p : Byte × U32) => Input.command (encode (.feedByte p.1)) p.2 }
    s.asm_state = .seekingStart ∧ s.asm_idx = 0#5 ∧ s.buf = [] ∧ frame.length = 22 ∧
      frame[21]? = some (0x77#8, 1000#32) ∧ m.wf ∧
      (∀ (j : Nat) (h : j < frame.length), m.read j = frame[j].1) ∧ m.read 0 = 0xFA#8 ∧
      s.pending = frame.map (fun p => Input.command (encode (.feedByte p.1)) p.2) ++ [] := by
  refine ⟨rfl, rfl, rfl, rfl, rfl, by decide, fun j h => ?_, by decide, (List.append_nil _).symm⟩
  have hj : j < 22 := h
  interval_cases j <;> rfl

/-- S6: the stream 00, 12, FF, A0. -/
theorem witness_StreamWithoutMarkerEmitsNothing :
    let bytes : List (Byte × U32) := [(0x00#8, 0#32), (0x12#8, 0#32), (0xFF#8, 0#32), (0xA0#8, 0#32)]
    let s := { State.reset with pending := bytes.map fun (p : Byte × U32) => Input.command (encode (.feedByte p.1)) p.2 }
    s.asm_state = .seekingStart ∧ s.events = [] ∧ (∀ p ∈ bytes, p.1 ≠ 0xFA#8) ∧
      s.pending = bytes.map (fun p => Input.command (encode (.feedByte p.1)) p.2) :=
  ⟨rfl, rfl, by simp, rfl⟩

/-! ### Witnesses: configuration -/

/-- Both clauses at both ends of their ranges. -/
theorem witness_SetTargetStoresOrSubstitutes :
    (0#32 : U32).toInt ≤ 0 ∧ (0x80000000#32 : U32).toInt ≤ 0 ∧ 0 < (1#32 : U32).toInt ∧
      0 < (0x7FFFFFFF#32 : U32).toInt := by decide

theorem witness_SetPeriodStoresOrRejectsZero :
    (0#32 : U32) = 0#32 ∧ (1#32 : U32) ≠ 0#32 ∧ (0xFFFFFFFF#32 : U32) ≠ 0#32 := by decide

/-! ### Witnesses: TICK -/

/-- Due for the first time, disabled, and enabled one millisecond early (V-REG-2). -/
theorem witness_ComputeHappensExactlyWhenDue :
    ((enabledAt 20#32).motor_en = true ∧
        (enabledAt 20#32).period_ms.toNat ≤ ((enabledAt 20#32).now - (enabledAt 20#32).pid_last_ms).toNat) ∧
      State.reset.motor_en = false ∧
      ((enabledAt 19#32).now - (enabledAt 19#32).pid_last_ms).toNat < (enabledAt 19#32).period_ms.toNat := by decide

/-- The first millisecond at which a compute is due. -/
theorem witness_ExactComputeIsThePidFormula :
    let s := enabledAt 20#32
    s.params.numerics = .exact ∧ s.motor_en = true ∧ s.period_ms ≠ 0#32 ∧
      s.period_ms.toNat ≤ (s.now - s.pid_last_ms).toNat := by decide

theorem witness_Binary64ComputeRoundsEveryOperator :
    let s := withNumerics .binary64 (enabledAt 20#32)
    s.params.numerics = .binary64 ∧ s.motor_en = true ∧ s.period_ms ≠ 0#32 ∧
      s.period_ms.toNat ≤ (s.now - s.pid_last_ms).toNat := by decide

/-- The largest significand and the smallest exponent. -/
theorem witness_RoundingIsToNearest : |(2 ^ 53 - 1 : Int)| < 2 ^ 53 ∧ (-1074 : Int) ≤ -1074 := by decide

/-- The largest finite binary64 number is below the magnitude from which IEEE 754 overflows. -/
theorem witness_RoundingIsToNearest_finite :
    |((2 ^ 53 - 1) * (2 : Rat) ^ (971 : Int))| < (2 ^ 54 - 1) * (2 : Rat) ^ (970 : Int) := by
  have h : (0 : Rat) < 2 ^ (970 : Int) := by positivity
  rw [show (2 : Rat) ^ (971 : Int) = 2 ^ (970 : Int) * 2 from zpow_add_one₀ (by norm_num) 970]
  generalize (2 : Rat) ^ (970 : Int) = x at h ⊢
  rw [abs_of_pos (mul_pos (by norm_num) (by linarith))]
  linarith

/-- 0.1 is not a binary64 number: it is rounded to 0x1.999999999999ap-4, so the rounding is not the identity. -/
theorem test_round_tenth : roundBinary64 (1 / 10) = 0x1999999999999a / 2 ^ 56 := by decide +kernel

/-- 2^53 + 1 lies halfway between two binary64 numbers. -/
theorem witness_RoundingTiesGoToEven :
    let q : Rat := 9007199254740993
    let k : Int := 4503599627370496
    let t : Int := 1
    (2 : Rat) ^ (t + 52) ≤ |q| ∧ -1074 ≤ t ∧ |q| < (2 : Rat) ^ (t + 53) ∧
      |(k : Rat) * (2 : Rat) ^ t - q| = (2 : Rat) ^ t / 2 := by
  norm_num

/-- Half the smallest binary64 number lies halfway between 0 and it. -/
theorem witness_RoundingTiesGoToEven_smallest :
    let q : Rat := (2 : Rat) ^ (-1074 : Int) / 2
    |q| < (2 : Rat) ^ (-1074 + 53 : Int) ∧
      |((0 : Int) : Rat) * (2 : Rat) ^ (-1074 : Int) - q| = (2 : Rat) ^ (-1074 : Int) / 2 := by
  have h : (0 : Rat) < (2 : Rat) ^ (-1074 : Int) / 2 := by positivity
  refine ⟨?_, by simp only [Int.cast_zero, zero_mul, zero_sub, abs_neg]; exact abs_of_pos h⟩
  simp only [abs_of_pos h]
  exact (half_lt_self (by positivity)).trans (zpow_lt_zpow_right₀ (by norm_num) (by norm_num))

/-- The first effective check after reset: out of band and enabled, in band, disabled. -/
theorem witness_EffectiveCheckCountsViolations :
    let s := enabledAt 200#32
    s.params.wdIntervalMs ≤ (s.now - s.wd_last_ms).toNat ∧ outOfBand s.rpm_q6 s.sp_q6 = true ∧
      outOfBand 15360#16 s.sp_q6 = false := by decide

/-- The last millisecond before the first check. -/
theorem witness_NoCheckBeforeTheInterval :
    let s := enabledAt 199#32
    (s.now - s.wd_last_ms).toNat < s.params.wdIntervalMs ∧ ∃ t, exec .disable s = .next t := ⟨by decide, _, rfl⟩

theorem witness_RepeatedTickDoesNothing :
    let s := enabledAt 200#32
    s.period_ms ≠ 0#32 ∧ 0 < s.params.wdIntervalMs ∧ ∃ t, exec .tick s = .next t := ⟨by decide, by decide, _, rfl⟩

/-- Eleven checks at the shortest interval, after which the fault shows (V-WDG-1). -/
theorem witness_FaultShowsAfterThresholdViolations :
    let nows : List U32 := (List.range 11).map fun i => BitVec.ofNat 32 (200 * (i + 1))
    let s := { enabledAt 0#32 with pending := nows.map fun n => Input.command (encode .tick) n }
    s.motor_en = true ∧ outOfBand s.rpm_q6 s.sp_q6 = true ∧ s.wd_count = 0#16 ∧
      SpacedBy s.params.wdIntervalMs s.wd_last_ms nows ∧
      s.pending = nows.map (fun n => Input.command (encode .tick) n) ∧
      s.params.wdThreshold < min nows.length 65535 := by
  refine ⟨rfl, by decide, rfl, ?_, rfl, by decide⟩
  simp only [List.range, List.range.loop, List.map, SpacedBy]
  decide

/-! ### Witnesses: whole-machine rules -/

/-- A next state for a command of each kind. -/
theorem witness_RegistersAreWrittenOnlyByTheirCommands :
    (∃ t, exec (.feedByte 0x77#8) (beforeLast f1 0#32) = .next t) ∧ (∃ t, exec .tick (enabledAt 20#32) = .next t) ∧
      (∃ t, exec .enable State.reset = .next t) ∧ (∃ t, exec .disable (enabledAt 0#32) = .next t) ∧
      (∃ t, exec (.setTarget 1#32) State.reset = .next t) ∧
      (∃ t, exec (.setTunings 1#32 2#32 3#32) State.reset = .next t) ∧
      (∃ t, exec (.setPeriod 1#32) State.reset = .next t) :=
  ⟨⟨_, rfl⟩, ⟨_, rfl⟩, ⟨_, rfl⟩, ⟨_, rfl⟩, ⟨_, rfl⟩, ⟨_, rfl⟩, ⟨_, rfl⟩⟩

/-- A frame rejected: F1 with its last byte 0x78. -/
theorem witness_EventsFollowTheFixedOrder :
    ∃ t, exec (.feedByte 0x78#8) (beforeLast f1 0#32) = .next t ∧ t.response = some ⟨.ok, 1#32⟩ :=
  ⟨_, rfl, by decide⟩

/-- DISABLE of a running motor changes the level, with its event. -/
theorem witness_DutyChangesOnlyWithItsEvent :
    let s := { enabledAt 0#32 with pid_out := 1, pwm_duty := 1 }
    ∃ t, exec .disable s = .next t ∧ t.pwm_duty ≠ s.pwm_duty ∧ t.events = s.events ++ [.pwm 0] :=
  ⟨_, rfl, by decide, rfl⟩

theorem witness_OnlyFeedByteAndTickReadNow : (∀ b, Instr.enable ≠ .feedByte b) ∧ Instr.enable ≠ .tick :=
  ⟨by simp, by decide⟩

/-- The reset state meets the invariant. -/
theorem reset_inv : BlockInv State.reset where
  params := by decide
  assembler := by unfold AssemblerInv; decide
  buffer := ⟨by decide, by simp [State.reset, State.resetWith], by simp [State.reset, State.resetWith]⟩
  config := by unfold ConfigInv; decide
  error := by unfold ErrorInv; decide
  output := by unfold OutputInv; decide +kernel
  integrator := fun _ => by decide +kernel

/-- The invariant holds in the middle of a frame too: F1's first byte is stored. -/
theorem accumulating_inv :
    BlockInv { State.reset with asm_state := .accumulating, asm_idx := 1#5, buf := [(0, 0xFA#8)] } where
  params := by decide
  assembler := by unfold AssemblerInv; decide
  buffer := ⟨by decide, by decide, fun _ => by decide⟩
  config := by unfold ConfigInv; decide
  error := by unfold ErrorInv; decide
  output := by unfold OutputInv; decide +kernel
  integrator := fun _ => by decide +kernel

theorem witness_ParametersAreNeverWritten : ∃ t, step (State.reset.withFetchWord 104 0x03000000000000000000000000) = .next t :=
  ⟨_, rfl⟩

theorem witness_BufferStaysCanonical :
    let s := (beforeLast f1 0#32).withFetchWord 104 0x01000000770000000000000000
    s.buf.wf ∧ ∃ t, step s = .next t := ⟨by decide, _, rfl⟩

/-- The defaults, and the largest legal setpoint with the smallest legal period. -/
theorem witness_ResetHasTheInvariant :
    Params.default.wf = true ∧
      ({ Params.default with spResetQ6 := 0x7FFFFFFF#32, periodResetMs := 1#32 } : Params).wf = true := by decide

theorem witness_EveryStepKeepsTheInvariant : BlockInv State.reset ∧ ∃ t, step State.reset = .next t :=
  ⟨reset_inv, _, rfl⟩

theorem witness_TheBlockNeverStops :
    BlockInv { State.reset with asm_state := .accumulating, asm_idx := 1#5, buf := [(0, 0xFA#8)] } := accumulating_inv

/-- The reset state under BINARY64. -/
theorem witness_Binary64RegistersStayBinary64 :
    let s := withNumerics .binary64 State.reset
    s.params.numerics = .binary64 ∧ BlockInv s ∧ Binary64Inv s ∧ ∃ t, step s = .next t := by
  refine ⟨rfl, ?_, fun _ => ⟨isBinary64_zero, isBinary64_zero, isBinary64_zero⟩, _, rfl⟩
  obtain ⟨a, b, c, d, e, f, g⟩ := reset_inv
  exact ⟨a, b, c, d, e, f, g⟩

end Sys2Proof.Tests
end

section
/-! SUPPORT. Proofs of the statements of 00_scope.md: the block never stops, a TICK sees only clock differences, and no
step writes the parameters. -/

namespace Sys2Proof.Machine

/-! ### What each command does to the assembler and the parameters -/

/-- The two registers that decide whether a step can fault, and the parameters, are the same in both states. -/
def SameAssemblerAndParams (s t : State) : Prop :=
  t.asm_state = s.asm_state ∧ t.asm_idx = s.asm_idx ∧ t.params = s.params

/-- TICK writes regulator and watchdog registers only. -/
theorem execTick_sameAssemblerAndParams (s : State) : ∃ t, execTick s = .next t ∧ SameAssemblerAndParams s t := by
  obtain ⟨hstate, hidx, -, -, -, -, -, -, -, -, -, -, -, -, hparams, -, -⟩ := pidStep_frame s
  refine ⟨_, execTick_eq s, ?_⟩
  rw [wdStep_eq]
  exact ⟨hstate, hidx, hparams⟩

/-- SET_PERIOD gives a next state whether it stores the period or rejects it. -/
theorem execSetPeriod_sameAssemblerAndParams (ms : U32) (s : State) :
    ∃ t, execSetPeriod ms s = .next t ∧ SameAssemblerAndParams s t := by
  by_cases h : ms = 0#32
  · exact ⟨answerError .rejected s, by simp [execSetPeriod, h], rfl, rfl, rfl⟩
  · exact ⟨respond .ok 0#32 { s with period_ms := ms }, by simp [execSetPeriod, h], rfl, rfl, rfl⟩

/-- Every command but FEED_BYTE gives a next state, with the assembler and the parameters as before. -/
theorem exec_sameAssemblerAndParams {i : Instr} (hi : ∀ b, i ≠ .feedByte b) (s : State) :
    ∃ t, exec i s = .next t ∧ SameAssemblerAndParams s t := by
  cases i with
  | feedByte b => exact absurd rfl (hi b)
  | tick => exact execTick_sameAssemblerAndParams s
  | setPeriod ms => exact execSetPeriod_sameAssemblerAndParams ms s
  | enable | disable | setTarget | setTunings | getRpm | getEnabled | getRotPeriod =>
    exact ⟨_, rfl, rfl, rfl, rfl⟩

/-! ### FEED_BYTE -/

@[simp] theorem frameComplete_params (s : State) : (frameComplete s).2.params = s.params := by
  obtain ⟨-, -, -, -, -, -, -, -, -, -, -, -, -, -, -, -, -, hparams, -, -⟩ := frameComplete_frame s
  exact hparams

theorem advanceFrame_params (s : State) : (advanceFrame s).params = s.params := by
  rcases advanceFrame_cases s with ⟨-, he⟩ | ⟨-, he⟩ <;> simp [he]

theorem seekByte_params (b : Byte) (s : State) : (seekByte b s).params = s.params := by
  rcases seekByte_cases b s with ⟨-, he⟩ | ⟨-, he⟩ <;> rw [he]

theorem execFeedByte_params {b : Byte} {s t : State} (h : execFeedByte b s = .next t) : t.params = s.params := by
  rcases execFeedByte_cases b s with ⟨-, he⟩ | ⟨-, -, he⟩ | ⟨-, -, he⟩ <;> rw [he] at h <;> cases h
  · exact seekByte_params b s
  · exact advanceFrame_params _

/-- A byte while seeking leaves the cursor 0, or moves it to 1 and starts accumulating (10_state.md R23). -/
theorem seekByte_assemblerInv (b : Byte) {s : State} (h : AssemblerInv s) : AssemblerInv (seekByte b s) := by
  rcases seekByte_cases b s with ⟨-, he⟩ | ⟨-, he⟩ <;> rw [he]
  · exact ⟨by simp, by simp⟩
  · exact h

/-- The cursor of an accumulating assembler moves to 1..21, or back to 0 with the assembler seeking. -/
theorem advanceFrame_assemblerInv {s : State} (hacc : s.asm_state = .accumulating) (hidx : s.asm_idx.toNat ≤ 21) :
    AssemblerInv (advanceFrame s) := by
  have hnext : (s.asm_idx + 1#5).toNat = s.asm_idx.toNat + 1 := by bv_omega
  rcases advanceFrame_cases s with ⟨hne, he⟩ | ⟨-, he⟩ <;> rw [he]
  · have hpos : s.asm_idx + 1#5 ≠ 0#5 := by bv_omega
    have hle : (s.asm_idx + 1#5).toNat ≤ 21 := by omega
    exact ⟨by simp [hacc, hpos], hle⟩
  · exact ⟨by simp, by simp⟩

/-- From a state with its cursor in range FEED_BYTE gives a next state, with its cursor in range again. -/
theorem execFeedByte_assemblerInv (b : Byte) {s : State} (h : AssemblerInv s) :
    ∃ t, execFeedByte b s = .next t ∧ AssemblerInv t := by
  rcases execFeedByte_cases b s with ⟨-, he⟩ | ⟨hacc, -, he⟩ | ⟨-, hout, -⟩
  · exact ⟨_, he, seekByte_assemblerInv b h⟩
  · exact ⟨_, he, advanceFrame_assemblerInv hacc h.2⟩
  · exact absurd h.2 (by omega)

/-! ### Commands, steps and runs -/

theorem SameAssemblerAndParams.assemblerInv {s t : State} (hst : SameAssemblerAndParams s t) (h : AssemblerInv s) :
    AssemblerInv t := by
  obtain ⟨hstate, hidx, -⟩ := hst
  rwa [AssemblerInv, hstate, hidx]

theorem exec_assemblerInv (i : Instr) {s : State} (h : AssemblerInv s) : ∃ t, exec i s = .next t ∧ AssemblerInv t := by
  by_cases hi : ∃ b, i = .feedByte b
  · obtain ⟨b, rfl⟩ := hi
    exact execFeedByte_assemblerInv b h
  · obtain ⟨t, ht, hst⟩ := exec_sameAssemblerAndParams (not_exists.mp hi) s
    exact ⟨t, ht, hst.assemblerInv h⟩

theorem exec_params {i : Instr} {s t : State} (h : exec i s = .next t) : t.params = s.params := by
  by_cases hi : ∃ b, i = .feedByte b
  · obtain ⟨b, rfl⟩ := hi
    exact execFeedByte_params h
  · obtain ⟨u, hu, -, -, hparams⟩ := exec_sameAssemblerAndParams (not_exists.mp hi) s
    rw [hu] at h
    cases h
    exact hparams

/-- Progress and preservation in one: whatever is presented, a state with its cursor in range steps to another. -/
theorem step_assemblerInv {s : State} (h : AssemblerInv s) : ∃ t, step s = .next t ∧ AssemblerInv t := by
  rcases step_cases s with ⟨-, he⟩ | ⟨rest, -, he⟩ | ⟨w, now, rest, i, -, -, he⟩ | ⟨w, now, rest, e, -, -, he⟩
  · exact ⟨s, he, h⟩
  · exact ⟨_, he, by simp [applyReset, State.resetWith], by simp [applyReset, State.resetWith]⟩
  · obtain ⟨t, ht, hinv⟩ := exec_assemblerInv i (s := beginCommand now rest s) h
    exact ⟨t, he.trans ht, hinv⟩
  · exact ⟨_, he, h⟩

theorem run_assemblerInv (k : Nat) {s : State} (h : AssemblerInv s) :
    ∃ t, Sys2Proof.core.run k s = .next t ∧ AssemblerInv t := by
  induction k generalizing s with
  | zero => exact ⟨s, rfl, h⟩
  | succ k ih =>
    obtain ⟨u, hu, hinv⟩ := step_assemblerInv h
    obtain ⟨t, ht, htinv⟩ := ih hinv
    exact ⟨t, by rw [run_succ, hu]; exact ht, htinv⟩

/-- Settles O54: of the invariant only the assembler's part is needed, because the only fault is FEED_BYTE's with an
accumulating cursor of 22 or more. -/
theorem theBlockNeverStops : Obligations.TheBlockNeverStops := by
  intro k s h
  obtain ⟨t, ht, hinv⟩ := run_assemblerInv k h.assembler
  obtain ⟨u, hu, -⟩ := step_assemblerInv hinv
  exact ⟨t, ht, u, hu⟩

/-- Settles O50: reset takes the registers from the parameters it keeps, and no command writes them. -/
theorem parametersAreNeverWritten : Obligations.ParametersAreNeverWritten := by
  intro s t h
  rcases step_cases s with ⟨-, he⟩ | ⟨rest, -, he⟩ | ⟨w, now, rest, i, -, -, he⟩ | ⟨w, now, rest, e, -, -, he⟩ <;>
    rw [he] at h
  · cases h; rfl
  · cases h; rfl
  · exact exec_params (s := beginCommand now rest s) h
  · cases h; rfl

/-! ### A later clock -/

/-- Elapsed time is a difference modulo 2^32 (00_scope.md R14). -/
@[simp] theorem elapsed_add_right (now last d : U32) : elapsed (now + d) (last + d) = elapsed now last := by
  simp [elapsed]

@[simp] theorem pidDue_laterBy (d : U32) (s : State) : pidDue (laterBy d s) = pidDue s := by
  simp [pidDue, laterBy]

@[simp] theorem wdDue_laterBy (d : U32) (s : State) : wdDue (laterBy d s) = wdDue s := by
  simp [wdDue, laterBy]

/-- No term of the PID step reads a timestamp, so a compute moves only the one it takes from the clock. -/
theorem pidCompute_laterBy (d : U32) (s : State) : pidCompute (laterBy d s) = laterBy d (pidCompute s) := by
  rw [pidCompute_eq, pidCompute_eq]
  rfl

theorem pidStep_laterBy (d : U32) (s : State) :
    pidStep (laterBy d s) = ((pidStep s).1, laterBy d (pidStep s).2) := by
  rcases pidStep_cases s with ⟨hdue, he⟩ | ⟨hdue, he⟩ <;> rw [he]
  · simp [pidStep, hdue, pidCompute_laterBy]
  · simp [pidStep, hdue]

theorem wdStep_laterBy (d : U32) (s : State) : wdStep (laterBy d s) = ((wdStep s).1, laterBy d (wdStep s).2) := by
  rcases wdStep_cases s with ⟨hdue, he⟩ | ⟨hdue, he⟩ <;> rw [he]
  · simp only [wdStep, wdDue_laterBy, hdue, if_true]
    rfl
  · simp [wdStep, hdue]

/-- Settles O44: TICK is the PID step and then the watchdog step, and both commute with a later clock. -/
theorem tickSeesOnlyClockDifferences : Obligations.TickSeesOnlyClockDifferences := by
  intro s d
  refine ⟨_, execTick_eq s, ?_⟩
  change execTick (laterBy d s) = _
  rw [execTick_eq, pidStep_laterBy, wdStep_laterBy]
  rfl

end Sys2Proof.Machine
end

section
/-! SUPPORT. Proofs of the statements of 10_state.md: the reset state, which command writes which register, the level
and its event, and the invariants every step keeps. -/

namespace Sys2Proof.Machine

/-! ### What FEED_BYTE leaves alone -/

/-- `s` with what FEED_BYTE owns taken from `t`: the assembler, the buffer, the decoder's registers and the outputs. -/
def withFrameOf (t s : State) : State :=
  { s with
    asm_state := t.asm_state, asm_idx := t.asm_idx, buf := t.buf, rpm_q6 := t.rpm_q6,
    rot_last_ms := t.rot_last_ms, rot_period_ms := t.rot_period_ms, response := t.response, events := t.events }

theorem frameComplete_eq_withFrameOf (s : State) : (frameComplete s).2 = withFrameOf (frameComplete s).2 s := by
  rcases frameComplete_cases s with ⟨-, he⟩ | ⟨-, -, -, he⟩ | ⟨-, -, he⟩ <;> rw [he]
  · rfl
  · rfl
  · rw [decodeFrame_eq]
    rfl

theorem seekByte_eq_withFrameOf (b : Byte) (s : State) : seekByte b s = withFrameOf (seekByte b s) s := by
  rcases seekByte_cases b s with ⟨-, he⟩ | ⟨-, he⟩ <;> rw [he] <;> rfl

theorem advanceFrame_eq_withFrameOf (s : State) : advanceFrame s = withFrameOf (advanceFrame s) s := by
  rcases advanceFrame_cases s with ⟨-, he⟩ | ⟨-, he⟩ <;> rw [he]
  · rfl
  · rw [frameComplete_eq_withFrameOf]
    rfl

/-- FEED_BYTE writes no register of the configuration, the regulator, the driver or the watchdog. -/
theorem execFeedByte_eq_withFrameOf {b : Byte} {s t : State} (h : execFeedByte b s = .next t) :
    t = withFrameOf t s := by
  rcases execFeedByte_cases b s with ⟨-, he⟩ | ⟨-, -, he⟩ | ⟨-, -, he⟩ <;> rw [he] at h <;> cases h
  · rw [seekByte_eq_withFrameOf]
    rfl
  · rw [advanceFrame_eq_withFrameOf]
    rfl

/-! ### Everything TICK and SET_PERIOD can do -/

/-- TICK computes or not, and writes the watchdog's registers and the response. -/
theorem execTick_cases (s : State) :
    ∃ (last : U32) (count : U16) (r : Option Response),
      (pidDue s = true ∧
          execTick s = .next { pidCompute s with wd_last_ms := last, wd_count := count, response := r }) ∨
        (pidDue s = false ∧ execTick s = .next { s with wd_last_ms := last, wd_count := count, response := r }) := by
  rw [execTick_eq, wdStep_eq]
  rcases pidStep_cases s with ⟨hdue, he⟩ | ⟨hdue, he⟩ <;> rw [he]
  · exact ⟨_, _, _, .inl ⟨hdue, rfl⟩⟩
  · exact ⟨_, _, _, .inr ⟨hdue, rfl⟩⟩

theorem execSetPeriod_cases (ms : U32) (s : State) :
    (ms = 0#32 ∧ execSetPeriod ms s = .next (answerError .rejected s)) ∨
      (ms ≠ 0#32 ∧ execSetPeriod ms s = .next (respond .ok 0#32 { s with period_ms := ms })) := by
  by_cases h : ms = 0#32 <;> simp [execSetPeriod, h]

/-! ### Which command writes which register -/

/-- Settles O46: FEED_BYTE, TICK and SET_PERIOD by what each of them can do, and every other command is one record
update. -/
theorem registersAreWrittenOnlyByTheirCommands : Obligations.RegistersAreWrittenOnlyByTheirCommands := by
  intro i s t h
  cases i with
  | feedByte b =>
    rw [execFeedByte_eq_withFrameOf h]
    simp [withFrameOf]
  | tick =>
    obtain ⟨last, count, r, ⟨-, he⟩ | ⟨-, he⟩⟩ := execTick_cases s <;> cases he.symm.trans h <;>
      simp [pidCompute_eq]
  | setPeriod ms =>
    rcases execSetPeriod_cases ms s with ⟨-, he⟩ | ⟨-, he⟩ <;> cases he.symm.trans h <;> simp
  | enable | disable | setTarget | setTunings | getRpm | getEnabled | getRotPeriod =>
    cases h
    simp

section Ownership

variable {i : Instr} {s t : State}

theorem exec_keeps_assembler (h : exec i s = .next t) (hi : ∀ b, i ≠ .feedByte b) :
    t.asm_state = s.asm_state ∧ t.asm_idx = s.asm_idx ∧ t.buf = s.buf := by
  obtain ⟨hframe, -⟩ := registersAreWrittenOnlyByTheirCommands i s t h
  obtain ⟨hstate, hidx, hbuf, -⟩ := hframe hi
  exact ⟨hstate, hidx, hbuf⟩

theorem exec_keeps_sp_q6 (h : exec i s = .next t) (hi : ∀ a, i ≠ .setTarget a) : t.sp_q6 = s.sp_q6 := by
  obtain ⟨-, hsp, -⟩ := registersAreWrittenOnlyByTheirCommands i s t h
  exact hsp hi

theorem exec_keeps_period_ms (h : exec i s = .next t) (hi : ∀ ms, i ≠ .setPeriod ms) :
    t.period_ms = s.period_ms := by
  obtain ⟨-, -, -, hperiod, -⟩ := registersAreWrittenOnlyByTheirCommands i s t h
  exact hperiod hi

theorem exec_keeps_regulator (h : exec i s = .next t) (hi : i ≠ .tick) :
    t.pid_I = s.pid_I ∧ t.e_prev_q6 = s.e_prev_q6 ∧ t.pid_out = s.pid_out := by
  obtain ⟨-, -, -, -, hreg, -⟩ := registersAreWrittenOnlyByTheirCommands i s t h
  obtain ⟨hI, -, he, hout, -⟩ := hreg hi
  exact ⟨hI, he, hout⟩

theorem exec_keeps_motor_en (h : exec i s = .next t) (he : i ≠ .enable) (hd : i ≠ .disable) :
    t.motor_en = s.motor_en := by
  obtain ⟨-, -, -, -, -, hmotor, -⟩ := registersAreWrittenOnlyByTheirCommands i s t h
  exact hmotor he hd

theorem exec_keeps_pwm_duty (h : exec i s = .next t) (ht : i ≠ .tick) (he : i ≠ .enable) (hd : i ≠ .disable) :
    t.pwm_duty = s.pwm_duty := by
  obtain ⟨-, -, -, -, -, -, -, hduty, -⟩ := registersAreWrittenOnlyByTheirCommands i s t h
  exact hduty ht he hd

end Ownership

/-! ### The invariant of the frame buffer -/

/-- A write at the end of the stored bytes leaves one stored byte more. -/
theorem Memory.write_end_lt {m : Memory} {n : Nat} (v : Byte) (h : ∀ c ∈ m, c.1 < n) :
    ∀ c ∈ m.write n v, c.1 < n + 1 := by
  intro c hc
  rcases Memory.mem_write hc with ⟨rfl, -⟩ | hc
  · exact Nat.lt_succ_self n
  · exact (h c hc).trans (Nat.lt_succ_self n)

/-- The start marker goes to offset 0 of a buffer that was empty. -/
theorem seekByte_bufferInv (b : Byte) {s : State} (hidx : s.asm_idx = 0#5) (h : BufferInv s) :
    BufferInv (seekByte b s) := by
  rcases seekByte_cases b s with ⟨hb, he⟩ | ⟨-, he⟩ <;> rw [he]
  · obtain ⟨hwf, hcells, -⟩ := h
    rw [hidx] at hcells
    exact ⟨Memory.write_wf b hwf (by decide), Memory.write_end_lt b hcells,
      fun _ => (Memory.read_write_same 0 b hwf.1).trans hb⟩
  · exact h

/-- The cursor moves past the bytes stored so far, or the frame is over and the buffer empty. -/
theorem advanceFrame_bufferInv {s : State} (hidx : s.asm_idx.toNat ≤ 21) (hwf : s.buf.wf)
    (hcells : ∀ c ∈ s.buf, c.1 < s.asm_idx.toNat + 1) (hread : s.buf.read 0 = Config.START_MARKER) :
    BufferInv (advanceFrame s) := by
  have hnext : (s.asm_idx + 1#5).toNat = s.asm_idx.toNat + 1 := by bv_omega
  rcases advanceFrame_cases s with ⟨-, he⟩ | ⟨-, he⟩ <;> rw [he]
  · exact ⟨hwf, fun c hc => by simpa [hnext] using hcells c hc, fun _ => hread⟩
  · exact ⟨Memory.wf_nil, by simp, by simp⟩

theorem execFeedByte_bufferInv {b : Byte} {s t : State} (ha : AssemblerInv s) (hb : BufferInv s)
    (h : execFeedByte b s = .next t) : BufferInv t := by
  obtain ⟨hseek, hidx⟩ := ha
  rcases execFeedByte_cases b s with ⟨hs, he⟩ | ⟨hs, hlt, he⟩ | ⟨-, -, he⟩ <;> rw [he] at h <;> cases h
  · exact seekByte_bufferInv b (hseek.mp hs) hb
  · obtain ⟨hwf, hcells, hread⟩ := hb
    have hpos : 0 ≠ s.asm_idx.toNat := fun h0 => by
      have := hseek.mpr (BitVec.eq_of_toNat_eq h0.symm)
      simp [hs] at this
    exact advanceFrame_bufferInv hidx (Memory.write_wf b hwf hlt) (Memory.write_end_lt b hcells)
      ((Memory.read_write_other b hpos).trans (hread hs))

/-! ### Every command keeps each part of the invariant -/

section CommandsKeep

variable {i : Instr} {s t : State}

theorem exec_keeps_assemblerInv (h : AssemblerInv s) (ht : exec i s = .next t) : AssemblerInv t := by
  obtain ⟨u, hu, hinv⟩ := exec_assemblerInv i h
  cases hu.symm.trans ht
  exact hinv

theorem exec_keeps_bufferInv (ha : AssemblerInv s) (hb : BufferInv s) (ht : exec i s = .next t) : BufferInv t := by
  by_cases hi : ∃ b, i = .feedByte b
  · obtain ⟨b, rfl⟩ := hi
    exact execFeedByte_bufferInv ha hb ht
  · obtain ⟨hstate, hidx, hbuf⟩ := exec_keeps_assembler ht (not_exists.mp hi)
    rwa [BufferInv, hstate, hidx, hbuf]

/-- SET_TARGET stores a positive request or the default, and SET_PERIOD no period of 0 (10_state.md R28, R30). -/
theorem exec_keeps_configInv (hp : s.params.wf = true) (h : ConfigInv s) (ht : exec i s = .next t) :
    ConfigInv t := by
  obtain ⟨hsp, hperiod⟩ := h
  cases i with
  | setTarget a =>
    refine ⟨?_, by rwa [exec_keeps_period_ms ht (by simp)]⟩
    cases ht
    by_cases ha : targetOperand a ≤ 0
    · simp only [Params.wf, Bool.and_eq_true, decide_eq_true_eq] at hp
      simpa [ha] using hp.1
    · have hpos : 0 < a.toInt := not_le.mp ha
      simpa [ha] using hpos
  | setPeriod ms =>
    refine ⟨by rwa [exec_keeps_sp_q6 ht (by simp)], ?_⟩
    rcases execSetPeriod_cases ms s with ⟨-, he⟩ | ⟨hms, he⟩ <;> cases he.symm.trans ht
    · exact hperiod
    · exact hms
  | _ =>
    rw [ConfigInv, exec_keeps_sp_q6 ht (by simp), exec_keeps_period_ms ht (by simp)]
    exact ⟨hsp, hperiod⟩

/-- The error lies between a setpoint of 1 at the greatest speed and the greatest setpoint at rest (10_state.md
R33). -/
theorem errorQ6_mem (h : ConfigInv s) : -65534 ≤ errorQ6 s ∧ errorQ6 s ≤ 2 ^ 31 - 1 := by
  obtain ⟨hsp, -⟩ := h
  have hrpm := s.rpm_q6.isLt
  have hnat := BitVec.toInt_eq_toNat_cond s.sp_q6
  have hlt := s.sp_q6.isLt
  unfold errorQ6
  split at hnat <;> omega

theorem exec_keeps_errorInv (hc : ConfigInv s) (h : ErrorInv s) (ht : exec i s = .next t) : ErrorInv t := by
  by_cases hi : i = .tick
  · subst hi
    obtain ⟨last, count, r, ⟨-, he⟩ | ⟨-, he⟩⟩ := execTick_cases s <;> cases he.symm.trans ht
    · simpa [ErrorInv, pidCompute_eq] using errorQ6_mem hc
    · exact h
  · obtain ⟨-, heq, -⟩ := exec_keeps_regulator ht hi
    rwa [ErrorInv, heq]

/-- A compute happens only while the motor is enabled and sets output and level alike, ENABLE sets the level to the
output, DISABLE to 0 (43_speed_regulator.md R148). -/
theorem exec_keeps_outputInv (h : OutputInv s) (ht : exec i s = .next t) : OutputInv t := by
  have hout := h.1
  cases i with
  | tick =>
    obtain ⟨last, count, r, ⟨hdue, he⟩ | ⟨-, he⟩⟩ := execTick_cases s <;> cases he.symm.trans ht
    · obtain ⟨hmotor, -⟩ := (pidDue_iff s).mp hdue
      rw [pidCompute_eq]
      exact ⟨pidOutput_mem s, pidOutput_mem s, by simp [hmotor]⟩
    · exact h
  | enable =>
    cases ht
    exact ⟨hout, hout, rfl⟩
  | disable =>
    cases ht
    exact ⟨hout, by simp, rfl⟩
  | _ =>
    obtain ⟨-, -, heq⟩ := exec_keeps_regulator ht (by simp)
    rwa [OutputInv, heq, exec_keeps_motor_en ht (by simp) (by simp),
      exec_keeps_pwm_duty ht (by simp) (by simp) (by simp)]

theorem exec_keeps_integratorInv (h : IntegratorInv s) (ht : exec i s = .next t) : IntegratorInv t := by
  rw [IntegratorInv, exec_params ht]
  intro hclamp
  by_cases hi : i = .tick
  · subst hi
    obtain ⟨last, count, r, ⟨-, he⟩ | ⟨-, he⟩⟩ := execTick_cases s <;> cases he.symm.trans ht
    · simpa [pidCompute_eq] using integralTerm_mem hclamp
    · exact h hclamp
  · obtain ⟨heq, -, -⟩ := exec_keeps_regulator ht hi
    rw [heq]
    exact h hclamp

theorem exec_keeps_blockInv (h : BlockInv s) (ht : exec i s = .next t) : BlockInv t where
  params := (exec_params ht).symm ▸ h.params
  assembler := exec_keeps_assemblerInv h.assembler ht
  buffer := exec_keeps_bufferInv h.assembler h.buffer ht
  config := exec_keeps_configInv h.params h.config ht
  error := exec_keeps_errorInv h.config h.error ht
  output := exec_keeps_outputInv h.output ht
  integrator := exec_keeps_integratorInv h.integrator ht

end CommandsKeep

/-! ### The reset state, and every step -/

theorem resetWith_blockInv {p : Params} (h : p.wf = true) : BlockInv (State.resetWith p) where
  params := h
  assembler := by simp [AssemblerInv, State.resetWith]
  buffer := ⟨Memory.wf_nil, by simp [State.resetWith], by simp [State.resetWith]⟩
  config := by simpa [Params.wf, ConfigInv, State.resetWith] using h
  error := by simp [ErrorInv, State.resetWith]
  output := by simp [OutputInv, State.resetWith]
  integrator := by simp [IntegratorInv, State.resetWith]

/-- Settles O52: every register is 0, empty or the parameter that `Params.wf` asks about. -/
theorem resetHasTheInvariant : Obligations.ResetHasTheInvariant :=
  ⟨rfl, fun _ => resetWith_blockInv⟩

/-- Settles O11: the table is the definition of `State.resetWith` at the default parameters; an empty buffer reads
0x00. -/
theorem resetValuesAreTheTable : Obligations.ResetValuesAreTheTable := by
  refine ⟨?_, rfl, rfl, rfl, rfl, rfl, rfl, rfl, rfl⟩
  simp [HasResetRegisters, State.reset, State.resetWith]

/-- What reset has and every command keeps, every step keeps, where the ports do not matter to it. -/
theorem step_keeps {P : State → Prop} (hreset : ∀ rest s, P s → P (applyReset rest s))
    (hbegin : ∀ now rest s, P s → P (beginCommand now rest s)) (hanswer : ∀ s, P s → P (answerError .illegal s))
    (hexec : ∀ i s t, P s → exec i s = .next t → P t) {s t : State} (h : P s) (ht : step s = .next t) : P t := by
  rcases step_cases s with ⟨-, he⟩ | ⟨rest, -, he⟩ | ⟨w, now, rest, i, -, -, he⟩ | ⟨w, now, rest, e, -, -, he⟩ <;>
    rw [he] at ht
  · cases ht
    exact h
  · cases ht
    exact hreset rest s h
  · exact hexec i _ t (hbegin now rest s h) ht
  · cases ht
    exact hanswer _ (hbegin now rest s h)

/-- The invariant reads nothing of the ports. -/
theorem BlockInv.withPorts {s : State} (h : BlockInv s) (pending : List Input) (now : U32)
    (response : Option Response) (events : List Event) :
    BlockInv { s with pending := pending, now := now, response := response, events := events } := by
  obtain ⟨hparams, hasm, hbuf, hconfig, herror, hout, hint⟩ := h
  exact ⟨hparams, hasm, hbuf, hconfig, herror, hout, hint⟩

/-- Settles O53: each part of the invariant is kept by the commands that write its registers. -/
theorem everyStepKeepsTheInvariant : Obligations.EveryStepKeepsTheInvariant := by
  intro s t h ht
  refine step_keeps (P := BlockInv) (fun rest s h => ?reset) (fun now rest s h => ?begin) (fun s h => ?answer)
    (fun i s t => exec_keeps_blockInv) h ht
  case reset => exact (resetWith_blockInv h.params).withPorts rest s.now none []
  case begin => exact h.withPorts rest now none []
  case answer => exact h.withPorts s.pending s.now _ s.events

/-! ### The level and its event -/

/-- A level that changed has its event, the only one, and every PWM event carries the level after the command. -/
def DutyFollowsEvents (s t : State) : Prop :=
  (t.pwm_duty ≠ s.pwm_duty → t.events = s.events ++ [.pwm t.pwm_duty]) ∧
    ∀ es, t.events = s.events ++ es → ∀ u, Event.pwm u ∈ es → u = t.pwm_duty

theorem dutyFollowsEvents_of_kept {s t : State} {es : List Event} (hduty : t.pwm_duty = s.pwm_duty)
    (hes : t.events = s.events ++ es) (hno : ∀ u, Event.pwm u ∉ es) : DutyFollowsEvents s t := by
  refine ⟨fun hne => absurd hduty hne, fun es' hes' u hu => ?_⟩
  rw [List.append_cancel_left (hes'.symm.trans hes)] at hu
  exact absurd hu (hno u)

theorem dutyFollowsEvents_of_set {s t : State} (hes : t.events = s.events ++ [.pwm t.pwm_duty]) :
    DutyFollowsEvents s t := by
  refine ⟨fun _ => hes, fun es' hes' u hu => ?_⟩
  rw [List.append_cancel_left (hes'.symm.trans hes)] at hu
  simpa using hu

/-- The events of a completed frame are notifications and samples (60_exceptions.md R200). -/
theorem frameComplete_events (s : State) :
    ∃ es, (frameComplete s).2.events = s.events ++ es ∧ ∀ u, Event.pwm u ∉ es := by
  rcases frameComplete_cases s with ⟨-, he⟩ | ⟨-, -, -, he⟩ | ⟨-, -, he⟩ <;> rw [he]
  · exact ⟨_, rfl, by simp [failureEvent]⟩
  · exact ⟨_, rfl, by simp [failureEvent]⟩
  · rw [decodeFrame_eq]
    exact ⟨_, rfl, by simp [acceptedEvents, successEvent]⟩

theorem execFeedByte_events {b : Byte} {s t : State} (h : execFeedByte b s = .next t) :
    ∃ es, t.events = s.events ++ es ∧ ∀ u, Event.pwm u ∉ es := by
  rcases execFeedByte_cases b s with ⟨-, he⟩ | ⟨-, -, he⟩ | ⟨-, -, he⟩ <;> rw [he] at h <;> cases h
  · refine ⟨[], ?_, by simp⟩
    rcases seekByte_cases b s with ⟨-, he⟩ | ⟨-, he⟩ <;> simp [he]
  · rcases advanceFrame_cases { s with buf := s.buf.write s.asm_idx.toNat b } with ⟨-, he⟩ | ⟨-, he⟩ <;> rw [he]
    · exact ⟨[], by simp, by simp⟩
    · exact frameComplete_events _

/-- The driver sets the duty with its event, or finds it equal to the level (43_speed_regulator.md R141). -/
theorem pidCompute_dutyFollowsEvents (s : State) : DutyFollowsEvents s (pidCompute s) := by
  rw [pidCompute_eq]
  by_cases hu : pidOutput s = s.pwm_duty
  · exact dutyFollowsEvents_of_kept (es := []) hu (by simp [hu]) (by simp)
  · exact dutyFollowsEvents_of_set (by simp [hu])

/-- Settles O48: FEED_BYTE and the silent commands keep the level and emit no PWM event; a compute, ENABLE and DISABLE
go through the driver. -/
theorem dutyChangesOnlyWithItsEvent : Obligations.DutyChangesOnlyWithItsEvent := by
  intro i s t h
  change DutyFollowsEvents s t
  cases i with
  | feedByte b =>
    obtain ⟨es, hes, hno⟩ := execFeedByte_events h
    exact dutyFollowsEvents_of_kept (exec_keeps_pwm_duty h (by simp) (by simp) (by simp)) hes hno
  | tick =>
    obtain ⟨last, count, r, ⟨-, he⟩ | ⟨-, he⟩⟩ := execTick_cases s <;> cases he.symm.trans h
    · exact pidCompute_dutyFollowsEvents s
    · exact dutyFollowsEvents_of_kept (es := []) rfl (by simp) (by simp)
  | enable | disable =>
    cases h
    exact dutyFollowsEvents_of_set rfl
  | setPeriod ms =>
    rcases execSetPeriod_cases ms s with ⟨-, he⟩ | ⟨-, he⟩ <;> cases he.symm.trans h <;>
      exact dutyFollowsEvents_of_kept (es := []) rfl (by simp) (by simp)
  | setTarget | setTunings | getRpm | getEnabled | getRotPeriod =>
    cases h
    exact dutyFollowsEvents_of_kept (es := []) rfl (by simp) (by simp)

/-! ### Binary64 registers -/

/-- The greatest finite binary64 number. -/
theorem IsBinary64.abs_le {q : Num} (h : IsBinary64 q) : |q| ≤ (2 ^ 53 - 1) * 2 ^ (971 : Int) := by
  obtain ⟨k, t, hk, -, ht, rfl⟩ := h
  have hkq : |(k : Rat)| ≤ 2 ^ 53 - 1 := by exact_mod_cast Int.le_sub_one_of_lt hk
  have h2t : (2 : Rat) ^ t ≤ 2 ^ (971 : Int) := zpow_le_zpow_right₀ (by norm_num) ht
  rw [abs_mul, abs_of_pos (show (0 : Rat) < 2 ^ t by positivity)]
  exact mul_le_mul hkq h2t (by positivity) (by norm_num)

/-- A rounded product is within the product of its factors' powers of two. -/
theorem abs_numMul_le {a b : Num} {i j : Nat} (ha : |a| ≤ 2 ^ i) (hb : |b| ≤ 2 ^ j) :
    |numMul .binary64 a b| ≤ 2 ^ (i + j) := by
  have hab : |a * b| ≤ 2 ^ ((i + j : Nat) : Int) := by
    rw [abs_mul, zpow_natCast, pow_add]
    exact mul_le_mul ha hb (abs_nonneg b) (by positivity)
  simpa only [numMul, roundResult_binary64, zpow_natCast] using abs_round_le (by omega) hab

/-- A rounded quotient of a dividend of 32 bits by a positive `d`, where `2 ^ j * d` reaches 2^32. -/
theorem abs_numDiv_le {a d : Num} {j : Nat} (hd : 0 < d) (ha : |a| ≤ 2 ^ 32) (hj : (2 : Rat) ^ 32 ≤ 2 ^ j * d) :
    |numDiv .binary64 a d| ≤ 2 ^ j := by
  have hquot : |a / d| ≤ 2 ^ (j : Int) := by
    rw [abs_div, abs_of_pos hd, zpow_natCast, div_le_iff₀ hd]
    exact ha.trans hj
  rw [numDiv_of_ne_zero _ _ hd.ne', roundResult_binary64]
  simpa only [zpow_natCast] using abs_round_le (by omega) hquot

theorem abs_u32_le (x : U32) : |(x.toNat : Rat)| ≤ 2 ^ 32 := by
  rw [Nat.abs_cast]
  exact_mod_cast x.isLt.le

section Binary64

variable {s : State} (hn : s.params.numerics = .binary64)
include hn

theorem abs_errorRpm_le : |errorRpm s| ≤ 2 ^ 26 := by
  rw [errorRpm, hn]
  refine abs_numDiv_le (by norm_num) ?_ (by norm_num)
  have hsp := s.sp_q6.isLt
  have hrpm := s.rpm_q6.isLt
  have herr : |errorQ6 s| ≤ 2 ^ 32 := by
    rw [abs_le, errorQ6]
    omega
  exact_mod_cast herr

theorem abs_samplePeriod_le : |samplePeriod s| ≤ 2 ^ 23 := by
  rw [samplePeriod, hn]
  exact abs_numDiv_le (by norm_num) (abs_u32_le _) (by norm_num)

omit hn in
theorem abs_gain_le (g : U32) : |gain .binary64 g| ≤ 2 ^ 13 :=
  abs_numDiv_le (by norm_num) (by simpa [gainOperand] using abs_u32_le g) (by norm_num)

/-- The integral gain's bound is that of the gain scaled by the longest sample period. -/
theorem abs_gainI_le : |gainI s| ≤ 2 ^ 36 := by
  rw [gainI, hn]
  cases s.params.gainScaling with
  | perSecond => exact abs_numMul_le (abs_gain_le _) (abs_samplePeriod_le hn)
  | perSample => exact (abs_gain_le _).trans (by norm_num)

/-- One sample adds at most 2^62 to the integrator, less than half its last place where the sum could overflow: so it
does not, with the clamp or without (43_speed_regulator.md R137). -/
theorem isBinary64_integralTerm (h : IsBinary64 s.pid_I) : IsBinary64 (integralTerm s) := by
  rw [integralTerm, hn]
  cases s.params.antiWindup with
  | integralClamp => exact isBinary64_clamp01_round _
  | outputClampOnly =>
    refine isBinary64_round ?_
    have hstep := abs_numMul_le (abs_gainI_le hn) (abs_errorRpm_le hn)
    have hI := h.abs_le
    have htri := abs_add_le s.pid_I (numMul .binary64 (gainI s) (errorRpm s))
    have h971 : (2 : Rat) ^ (971 : Int) = 2 ^ (970 : Int) * 2 := zpow_add_one₀ (by norm_num) 970
    have hsmall : (2 : Rat) ^ (36 + 26) < 2 ^ (970 : Int) := by
      rw [← zpow_natCast]
      exact zpow_lt_zpow_right₀ (by norm_num) (by norm_num)
    rw [h971] at hI
    generalize (2 : Rat) ^ (970 : Int) = x at hI hsmall ⊢
    linarith

theorem isBinary64_pidOutput : IsBinary64 (pidOutput s) := by
  rw [pidOutput, hn]
  exact isBinary64_clamp01_round _

end Binary64

/-- A compute rounds or clamps what it stores, ENABLE sets the level to the output and DISABLE to 0. -/
theorem exec_keeps_binary64Inv {i : Instr} {s t : State} (h : Binary64Inv s) (ht : exec i s = .next t) :
    Binary64Inv t := by
  rw [Binary64Inv, exec_params ht]
  intro hn
  obtain ⟨hI, hout, hduty⟩ := h hn
  cases i with
  | tick =>
    obtain ⟨last, count, r, ⟨-, he⟩ | ⟨-, he⟩⟩ := execTick_cases s <;> cases he.symm.trans ht
    · rw [pidCompute_eq]
      exact ⟨isBinary64_integralTerm hn hI, isBinary64_pidOutput hn, isBinary64_pidOutput hn⟩
    · exact ⟨hI, hout, hduty⟩
  | enable =>
    cases ht
    exact ⟨hI, hout, hout⟩
  | disable =>
    cases ht
    exact ⟨hI, hout, isBinary64_zero⟩
  | _ =>
    obtain ⟨hIeq, -, houteq⟩ := exec_keeps_regulator ht (by simp)
    rw [hIeq, houteq, exec_keeps_pwm_duty ht (by simp) (by simp) (by simp)]
    exact ⟨hI, hout, hduty⟩

/-- Settles O55: that the operands have 32 bits bounds the integrator's increment, so no rounding of a stored register
overflows, and the other parts of the invariant are not needed. -/
theorem binary64RegistersStayBinary64 : Obligations.Binary64RegistersStayBinary64 := by
  intro s t _ h ht
  exact step_keeps (P := Binary64Inv) (fun _ _ _ _ => ⟨isBinary64_zero, isBinary64_zero, isBinary64_zero⟩)
    (fun _ _ _ h => h) (fun _ h => h) (fun _ _ _ => exec_keeps_binary64Inv) h ht

end Sys2Proof.Machine
end

section
/-! SUPPORT. Proofs of the statements of 20_memory.md: what FEED_BYTE does to the frame buffer, the buffer's canonical
form, and the stop at an offset that does not exist. -/

namespace Sys2Proof.Machine

/-! ### The buffer after FEED_BYTE -/

/-- A read after a write, at every offset. -/
theorem Memory.read_write {m : Memory} (a : Nat) (v : Byte) (h : m.wf) (x : Nat) :
    (m.write a v).read x = if x = a then v else m.read x := by
  split_ifs with hx
  · rw [hx, Memory.read_write_same a v h.1]
  · exact Memory.read_write_other v hx

/-- While seeking only the start marker is stored, at offset 0 (40_frame_assembler.md R91). -/
theorem storedOffset_of_seeking {b : Byte} {s : State} (hs : s.asm_state = .seekingStart) :
    storedOffset b s = if b = 0xFA#8 then some 0 else none := by
  simp [storedOffset, hs]

/-- While accumulating every byte before the last is stored, at the cursor (40_frame_assembler.md R92). -/
theorem storedOffset_of_accumulating {b : Byte} {s : State} (hs : s.asm_state = .accumulating) :
    storedOffset b s = if s.asm_idx.toNat < 21 then some s.asm_idx.toNat else none := by
  simp [storedOffset, hs]

/-- Everything FEED_BYTE can do to the buffer: store the byte at its offset, discard the byte, or complete a frame and
clear the buffer (40_frame_assembler.md R91, R92, R94). -/
theorem execFeedByte_buf_cases {b : Byte} {s t : State} (h : execFeedByte b s = .next t) :
    (∃ a, storedOffset b s = some a ∧ a < 22 ∧ t.buf = s.buf.write a b) ∨
      (s.asm_state = .seekingStart ∧ b ≠ 0xFA#8 ∧ t.buf = s.buf) ∨
      (s.asm_state = .accumulating ∧ s.asm_idx = 21#5 ∧ t.buf = []) := by
  rcases execFeedByte_cases b s with ⟨hs, he⟩ | ⟨hs, hlt, he⟩ | ⟨-, -, he⟩ <;> rw [he] at h <;> cases h
  · rcases seekByte_cases b s with ⟨hb, he⟩ | ⟨hb, he⟩ <;> rw [he]
    · exact .inl ⟨0, by rw [storedOffset_of_seeking hs, if_pos hb], by decide, rfl⟩
    · exact .inr (.inl ⟨hs, hb, rfl⟩)
  · have hnext : (s.asm_idx + 1#5).toNat = s.asm_idx.toNat + 1 := by bv_omega
    rcases advanceFrame_cases { s with buf := s.buf.write s.asm_idx.toNat b } with ⟨hne, he⟩ | ⟨heq, he⟩ <;> rw [he]
    · have hidx : s.asm_idx.toNat < 21 := by
        change (s.asm_idx + 1#5).toNat ≠ 22 at hne
        omega
      exact .inl ⟨_, by rw [storedOffset_of_accumulating hs, if_pos hidx], hlt, rfl⟩
    · have hidx : s.asm_idx = 21#5 := by
        change (s.asm_idx + 1#5).toNat = 22 at heq
        bv_omega
      exact .inr (.inr ⟨hs, hidx, rfl⟩)

/-- Settles O15: the three clauses are the three things FEED_BYTE can do to the buffer, and `storedOffset` tells them
apart. -/
theorem feedByteWritesOneBufferByte : Obligations.FeedByteWritesOneBufferByte := by
  intro b s t hwf h
  rcases execFeedByte_buf_cases h with ⟨a, ha, -, hbuf⟩ | ⟨hs, hb, hbuf⟩ | ⟨hs, hidx, hbuf⟩
  case inl =>
    refine ⟨fun a' ha' x => ?_, fun hs hb => ?_, fun hs hidx => ?_⟩
    · cases ha.symm.trans ha'
      rw [hbuf, Memory.read_write a b hwf]
    · simp [storedOffset_of_seeking hs, hb] at ha
    · simp [storedOffset_of_accumulating hs, hidx] at ha
  case inr.inl =>
    refine ⟨fun a ha => ?_, fun _ _ x => by rw [hbuf], fun hacc => ?_⟩
    · simp [storedOffset_of_seeking hs, hb] at ha
    · simp [hs] at hacc
  case inr.inr =>
    refine ⟨fun a ha => ?_, fun hseek => ?_, fun _ _ x => by rw [hbuf, Memory.read_nil]⟩
    · simp [storedOffset_of_accumulating hs, hidx] at ha
    · simp [hs] at hseek

/-! ### The canonical form -/

theorem execFeedByte_keeps_wf {b : Byte} {s t : State} (hwf : s.buf.wf) (h : execFeedByte b s = .next t) :
    t.buf.wf := by
  rcases execFeedByte_buf_cases h with ⟨a, -, ha, hbuf⟩ | ⟨-, -, hbuf⟩ | ⟨-, -, hbuf⟩ <;> rw [hbuf]
  · exact Memory.write_wf b hwf ha
  · exact hwf
  · exact Memory.wf_nil

theorem exec_keeps_wf {i : Instr} {s t : State} (hwf : s.buf.wf) (h : exec i s = .next t) : t.buf.wf := by
  by_cases hi : ∃ b, i = .feedByte b
  · obtain ⟨b, rfl⟩ := hi
    exact execFeedByte_keeps_wf hwf h
  · obtain ⟨-, -, hbuf⟩ := exec_keeps_assembler h (not_exists.mp hi)
    rwa [hbuf]

/-- Settles O51: reset empties the buffer, of the commands FEED_BYTE alone writes it, and the ports are apart from
it. -/
theorem bufferStaysCanonical : Obligations.BufferStaysCanonical := by
  intro s t hwf h
  exact step_keeps (P := fun s => s.buf.wf) (fun _ _ _ => Memory.wf_nil) (fun _ _ _ hwf => hwf) (fun _ hwf => hwf)
    (fun _ _ _ => exec_keeps_wf) hwf h

/-! ### The stop -/

/-- Settles O16: of the three things FEED_BYTE can do, only the fault has an accumulating cursor of 22 or more. -/
theorem cursorOutsideTheBufferStops : Obligations.CursorOutsideTheBufferStops := by
  intro b s hs hidx
  rcases execFeedByte_cases b s with ⟨hseek, -⟩ | ⟨-, hlt, -⟩ | ⟨-, -, he⟩
  · simp [hs] at hseek
  · exact absurd hidx hlt.not_ge
  · exact he

end Sys2Proof.Machine
end

section
/-! SUPPORT. Proofs of the statements of 30_encoding.md: encoder and decoder are inverse, the decodable words are those
of the opcode table, the command stream assembles field by field; then what the encoding rules say of the checksum
field and of the clock sample. -/

namespace Sys2Proof

/-! ### Decoding and encoding -/

/-- FEED_BYTE's operand is the low byte of its field (30_encoding.md R73). -/
theorem lowByte_of_byte (b : Byte) : (b.setWidth 32).extractLsb' 0 8 = b := by
  refine BitVec.eq_of_getLsbD_eq fun k hk => ?_
  simp [hk, show k < 32 by omega]

/-- The bits above FEED_BYTE's operand are zero (30_encoding.md R73). -/
theorem highBits_of_byte (b : Byte) : (b.setWidth 32).extractLsb' 8 24 = 0#24 := by
  refine BitVec.eq_of_getLsbD_eq fun k _ => ?_
  simp

/-- Settles O1: the fields read back from a packed word are the packed ones, and FEED_BYTE's operand fills `A`'s low
byte alone. -/
theorem decodeInvertsEncode : Obligations.DecodeInvertsEncode := by
  intro i
  cases i with
  | feedByte b =>
    simp [encode, decode, decodeWhen_ok, lowByte_of_byte, highBits_of_byte]
  | tick | enable | disable | setTarget | setTunings | setPeriod | getRpm | getEnabled | getRotPeriod =>
    simp [encode, decode, decodeWhen_ok]

theorem encode_injective : Function.Injective encode := fun i j h => by
  have hok := (decodeInvertsEncode i).symm.trans ((congrArg decode h).trans (decodeInvertsEncode j))
  exact Except.ok.inj hok

/-- Format F0 (30_encoding.md R72): every operand field was zero. -/
theorem encode_of_f0 {op : Byte} {a b c : U32} {i j : Instr} (hi : encode i = packWord op 0#32 0#32 0#32)
    (h : decodeWhen (a == 0#32 && b == 0#32 && c == 0#32) op i = .ok j) : encode j = packWord op a b c := by
  obtain ⟨hz, rfl⟩ := decodeWhen_ok.mp h
  simp only [Bool.and_eq_true, beq_iff_eq] at hz
  obtain ⟨⟨rfl, rfl⟩, rfl⟩ := hz
  exact hi

/-- Format FW (30_encoding.md R72): the fields `B` and `C` were zero. -/
theorem encode_of_fw {op : Byte} {a b c : U32} {i j : Instr} (hi : encode i = packWord op a 0#32 0#32)
    (h : decodeWhen (b == 0#32 && c == 0#32) op i = .ok j) : encode j = packWord op a b c := by
  obtain ⟨hz, rfl⟩ := decodeWhen_ok.mp h
  simp only [Bool.and_eq_true, beq_iff_eq] at hz
  obtain ⟨rfl, rfl⟩ := hz
  exact hi

/-- Format FB (30_encoding.md R72): bits 31:8 of `A` and the fields `B` and `C` were zero. -/
theorem encode_of_fb {a b c : U32} {j : Instr}
    (h : decodeWhen (a.extractLsb' 8 24 == 0#24 && (b == 0#32 && c == 0#32)) 0x01#8 (.feedByte (a.extractLsb' 0 8)) =
      .ok j) : encode j = packWord 0x01#8 a b c := by
  obtain ⟨hz, rfl⟩ := decodeWhen_ok.mp h
  simp only [Bool.and_eq_true, beq_iff_eq] at hz
  obtain ⟨ha, rfl, rfl⟩ := hz
  rw [encode, lowByte_setWidth ha]

/-- Settles O2: a word is its four fields, and under each opcode the decoder asks that every unused field is zero. -/
theorem encodeInvertsDecode : Obligations.EncodeInvertsDecode := by
  intro w i h
  rw [← packWord_fields w]
  rw [decode] at h
  generalize opField w = op, aField w = a, bField w = b, cField w = c at h ⊢
  rcases ite_eq_iff.mp h with ⟨feedByte, h⟩ | ⟨-, h⟩
  · subst feedByte; exact encode_of_fb h
  rcases ite_eq_iff.mp h with ⟨tick, h⟩ | ⟨-, h⟩
  · exact encode_of_f0 (tick ▸ rfl) h
  rcases ite_eq_iff.mp h with ⟨enable, h⟩ | ⟨-, h⟩
  · exact encode_of_f0 (enable ▸ rfl) h
  rcases ite_eq_iff.mp h with ⟨disable, h⟩ | ⟨-, h⟩
  · exact encode_of_f0 (disable ▸ rfl) h
  rcases ite_eq_iff.mp h with ⟨setTarget, h⟩ | ⟨-, h⟩
  · exact encode_of_fw (setTarget ▸ rfl) h
  rcases ite_eq_iff.mp h with ⟨setTunings, h⟩ | ⟨-, h⟩
  · subst setTunings; cases h; rfl
  rcases ite_eq_iff.mp h with ⟨setPeriod, h⟩ | ⟨-, h⟩
  · exact encode_of_fw (setPeriod ▸ rfl) h
  rcases ite_eq_iff.mp h with ⟨getRpm, h⟩ | ⟨-, h⟩
  · exact encode_of_f0 (getRpm ▸ rfl) h
  rcases ite_eq_iff.mp h with ⟨getEnabled, h⟩ | ⟨-, h⟩
  · exact encode_of_f0 (getEnabled ▸ rfl) h
  rcases ite_eq_iff.mp h with ⟨getRotPeriod, h⟩ | ⟨-, h⟩
  · exact encode_of_f0 (getRotPeriod ▸ rfl) h
  · cases h

theorem decode_eq_ok_iff {w : CommandWord} {i : Instr} : decode w = .ok i ↔ encode i = w :=
  ⟨encodeInvertsDecode w i, fun h => h ▸ decodeInvertsEncode i⟩

/-- Settles O4: the first six words are encodings, and of the two last one has a reserved opcode and one a bit in a
zero field. -/
theorem writtenOutWordsDecode : Obligations.WrittenOutWordsDecode :=
  ⟨decodeInvertsEncode (.feedByte 0xFA#8), decodeInvertsEncode .tick, decodeInvertsEncode (.setTarget 0xFFFFFFFB#32),
    decodeInvertsEncode (.setTunings 3000#32 1000#32 0#32), decodeInvertsEncode (.setPeriod 50#32),
    decodeInvertsEncode .getRotPeriod, rfl, rfl⟩

/-! ### The rows of the opcode table -/

theorem exists_row (i : Instr) : Laws.EncodesItsRow.Statement i := by
  cases i with
  | feedByte b => exact Laws.EncodesItsRow.feedByte b
  | tick => exact Laws.EncodesItsRow.tick
  | enable => exact Laws.EncodesItsRow.enable
  | disable => exact Laws.EncodesItsRow.disable
  | setTarget a => exact Laws.EncodesItsRow.setTarget a
  | setTunings kp ki kd => exact Laws.EncodesItsRow.setTunings kp ki kd
  | setPeriod ms => exact Laws.EncodesItsRow.setPeriod ms
  | getRpm => exact Laws.EncodesItsRow.getRpm
  | getEnabled => exact Laws.EncodesItsRow.getEnabled
  | getRotPeriod => exact Laws.EncodesItsRow.getRotPeriod

/-- A word of a row of format F0, whose mask is all ones, is the row's pattern. -/
theorem eq_pattern_of_matches {r : OpcodeRow} {w : CommandWord} (hmask : r.mask = BitVec.allOnes 104)
    (h : r.matches w = true) : r.pattern = w := by
  rw [OpcodeRow.matches, hmask, BitVec.and_allOnes, beq_iff_eq] at h
  exact h.symm

/-- A word of a row whose mask is made of fields has each masked field at the pattern's value. -/
theorem fields_of_matches {r : OpcodeRow} {w : CommandWord} {o o' : Byte} {a b c a' b' c' : U32}
    (hpattern : r.pattern = packWord o a b c) (hmask : r.mask = packWord o' a' b' c') (h : r.matches w = true) :
    opField w &&& o' = o ∧ aField w &&& a' = a ∧ bField w &&& b' = b ∧ cField w &&& c' = c := by
  rw [OpcodeRow.matches, hmask, hpattern, ← packWord_fields w, packWord_and, beq_iff_eq, packWord_inj] at h
  simpa using h

/-- A word of a row of format FW is its opcode and `A` alone (30_encoding.md R72). -/
theorem eq_packWord_of_matches_fw {r : OpcodeRow} {w : CommandWord} {o : Byte}
    (hpattern : r.pattern = packWord o 0#32 0#32 0#32)
    (hmask : r.mask = packWord (BitVec.allOnes 8) 0#32 (BitVec.allOnes 32) (BitVec.allOnes 32))
    (h : r.matches w = true) : packWord o (aField w) 0#32 0#32 = w := by
  obtain ⟨ho, -, hb, hc⟩ := fields_of_matches hpattern hmask h
  rw [BitVec.and_allOnes] at ho hb hc
  have hw := packWord_fields w
  rwa [ho, hb, hc] at hw

/-- A word of a row of format FB is its opcode and the low byte of `A` (30_encoding.md R72). -/
theorem eq_packWord_of_matches_fb {r : OpcodeRow} {w : CommandWord} {o : Byte}
    (hpattern : r.pattern = packWord o 0#32 0#32 0#32)
    (hmask : r.mask = packWord (BitVec.allOnes 8) 0xFFFFFF00#32 (BitVec.allOnes 32) (BitVec.allOnes 32))
    (h : r.matches w = true) : packWord o (((aField w).extractLsb' 0 8).setWidth 32) 0#32 0#32 = w := by
  obtain ⟨ho, ha, hb, hc⟩ := fields_of_matches hpattern hmask h
  rw [BitVec.and_allOnes] at ho hb hc
  have hhigh : (aField w).extractLsb' 8 24 = 0#24 := by
    have hmasked := congrArg (BitVec.extractLsb' 8 24) ha
    rwa [BitVec.extractLsb'_and, show BitVec.extractLsb' 8 24 0xFFFFFF00#32 = BitVec.allOnes 24 from rfl,
      BitVec.and_allOnes] at hmasked
  have hw := packWord_fields w
  rwa [ho, hb, hc, ← lowByte_setWidth hhigh] at hw

/-- A word of a row of format F3W is its opcode and its three operands (30_encoding.md R72). -/
theorem eq_packWord_of_matches_f3w {r : OpcodeRow} {w : CommandWord} {o : Byte}
    (hpattern : r.pattern = packWord o 0#32 0#32 0#32)
    (hmask : r.mask = packWord (BitVec.allOnes 8) 0#32 0#32 0#32) (h : r.matches w = true) :
    packWord o (aField w) (bField w) (cField w) = w := by
  obtain ⟨ho, -⟩ := fields_of_matches hpattern hmask h
  rw [BitVec.and_allOnes] at ho
  rw [← ho, packWord_fields]

/-- A word of a row encodes an instruction with the row's mnemonic (30_encoding.md R81). -/
theorem exists_encode_of_matches {r : OpcodeRow} {w : CommandWord} (hr : r ∈ opcodeTable) (h : r.matches w = true) :
    ∃ i : Instr, r.mnemonic = i.mnemonic ∧ encode i = w := by
  simp only [opcodeTable, List.mem_cons, List.not_mem_nil, or_false] at hr
  rcases hr with rfl | rfl | rfl | rfl | rfl | rfl | rfl | rfl | rfl | rfl
  · exact ⟨.feedByte ((aField w).extractLsb' 0 8), rfl, eq_packWord_of_matches_fb rfl rfl h⟩
  · exact ⟨.tick, rfl, eq_pattern_of_matches rfl h⟩
  · exact ⟨.enable, rfl, eq_pattern_of_matches rfl h⟩
  · exact ⟨.disable, rfl, eq_pattern_of_matches rfl h⟩
  · exact ⟨.setTarget (aField w), rfl, eq_packWord_of_matches_fw rfl rfl h⟩
  · exact ⟨.setTunings (aField w) (bField w) (cField w), rfl, eq_packWord_of_matches_f3w rfl rfl h⟩
  · exact ⟨.setPeriod (aField w), rfl, eq_packWord_of_matches_fw rfl rfl h⟩
  · exact ⟨.getRpm, rfl, eq_pattern_of_matches rfl h⟩
  · exact ⟨.getEnabled, rfl, eq_pattern_of_matches rfl h⟩
  · exact ⟨.getRotPeriod, rfl, eq_pattern_of_matches rfl h⟩

theorem wellFormed_iff_exists_encode {w : CommandWord} : w.wellFormed = true ↔ ∃ i, encode i = w := by
  rw [CommandWord.wellFormed, List.any_eq_true]
  constructor
  · rintro ⟨r, hr, h⟩
    obtain ⟨i, -, hi⟩ := exists_encode_of_matches hr h
    exact ⟨i, hi⟩
  · rintro ⟨i, rfl⟩
    obtain ⟨r, hr, -, h⟩ := exists_row i
    exact ⟨r, hr, h⟩

theorem nodup_mnemonics : (opcodeTable.map OpcodeRow.mnemonic).Nodup := by decide

/-- The rows an encoded word belongs to are one row, the one its instruction's mnemonic names: a second row's
instruction would have the same word, so be the same, and no two rows share a mnemonic. -/
theorem filter_matches_encode (i : Instr) :
    ∃ r, opcodeTable.filter (fun r => r.matches (encode i)) = [r] ∧ r.mnemonic = i.mnemonic := by
  obtain ⟨r, hr, hname, hmatches⟩ := exists_row i
  have honly : ∀ r' ∈ opcodeTable, r'.matches (encode i) = (r' == r) := by
    intro r' hr'
    rw [Bool.eq_iff_iff, beq_iff_eq]
    constructor
    · intro h
      obtain ⟨j, hj, he⟩ := exists_encode_of_matches hr' h
      rw [encode_injective he, ← hname] at hj
      exact List.inj_on_of_nodup_map nodup_mnemonics hr' hr hj
    · rintro rfl
      exact hmatches
  refine ⟨r, ?_, hname⟩
  rw [List.filter_congr honly, List.filter_beq, List.count_eq_one_of_mem nodup_mnemonics.of_map hr,
    List.replicate_one]

/-- Settles O3: the decodable words and the table's words are both the encodings, and each encoding has one row. -/
theorem legalWordsAreTheTableRows : Obligations.LegalWordsAreTheTableRows := by
  intro w
  simp only [decode_eq_ok_iff]
  refine ⟨wellFormed_iff_exists_encode, ?_⟩
  rintro i rfl
  exact filter_matches_encode i

end Sys2Proof

namespace Sys2Proof.Machine

/-! ### The textual command stream -/

theorem toNat_ofInt_of_fitsUnsigned {n : Nat} {v : Int} (h : fitsUnsigned n v = true) :
    ((BitVec.ofInt n v).toNat : Int) = v := by
  simp only [fitsUnsigned, Bool.and_eq_true, decide_eq_true_eq] at h
  obtain ⟨h0, hlt⟩ := h
  rw [BitVec.toNat_ofInt, Nat.cast_pow, Nat.cast_ofNat, Int.emod_eq_of_lt h0 hlt, Int.toNat_of_nonneg h0]

theorem toInt_ofInt_of_fitsSigned32 {v : Int} (h : fitsSigned32 v = true) : (BitVec.ofInt 32 v).toInt = v := by
  simp only [fitsSigned32, Bool.and_eq_true, decide_eq_true_eq] at h
  exact BitVec.toInt_ofInt_eq_self (by decide) h.1 h.2

/-- The fields of a packed word, as `EncodesCommand` reads them. -/
theorem fields_packWord (op : Byte) (a b c : U32) :
    (packWord op a b c).extractLsb' 96 8 = op ∧ (packWord op a b c).extractLsb' 64 32 = a ∧
      (packWord op a b c).extractLsb' 32 32 = b ∧ (packWord op a b c).extractLsb' 0 32 = c :=
  ⟨opField_packWord op a b c, aField_packWord op a b c, bField_packWord op a b c, cField_packWord op a b c⟩

/-- Operands that fit their fields are read back from the word as they were written (30_encoding.md R73 to R76). -/
theorem encodesCommand_encode {c : StreamCommand} (h : c.wf = true) : EncodesCommand c (encode c.instr) := by
  cases c with
  | feedByte b =>
    simp only [EncodesCommand, StreamCommand.instr, encode, fields_packWord, true_and, and_true]
    rw [BitVec.toNat_setWidth_of_le (by decide)]
    exact toNat_ofInt_of_fitsUnsigned h
  | setTarget q6 =>
    simp only [EncodesCommand, StreamCommand.instr, encode, fields_packWord, true_and, and_true]
    exact toInt_ofInt_of_fitsSigned32 h
  | setTunings kp ki kd =>
    simp only [StreamCommand.wf, Bool.and_eq_true] at h
    obtain ⟨⟨hp, hi⟩, hd⟩ := h
    simp only [EncodesCommand, StreamCommand.instr, encode, fields_packWord, true_and]
    exact ⟨toNat_ofInt_of_fitsUnsigned hp, toNat_ofInt_of_fitsUnsigned hi, toNat_ofInt_of_fitsUnsigned hd⟩
  | setPeriod ms =>
    simp only [EncodesCommand, StreamCommand.instr, encode, fields_packWord, true_and, and_true]
    exact toNat_ofInt_of_fitsUnsigned h
  | tick | enable | disable | getRpm | getEnabled | getRotPeriod =>
    exact fields_packWord _ _ _ _

/-- Settles O5: the word is the encoding of the line's instruction, so it decodes to it. -/
theorem commandStreamLinesAssemble : Obligations.CommandStreamLinesAssemble := by
  intro l h
  have hwf := h
  rw [StreamLine.wf, Bool.and_eq_true, decide_eq_true_eq] at hwf
  obtain ⟨hnow, hcmd⟩ := hwf
  refine ⟨encode l.cmd.instr, BitVec.ofNat 32 l.now, ?_, ?_, encodesCommand_encode hcmd, decodeInvertsEncode _⟩
  · rw [StreamLine.assemble, if_pos h]
  · rw [BitVec.toNat_ofNat, Nat.mod_eq_of_lt hnow]

/-! ### A presented table word -/

theorem decodeTableWord_eq_some_iff {nbits w : Nat} {i : Instr} :
    decodeTableWord nbits w = some i ↔ decode (tableWord nbits w) = .ok i := by
  rw [decodeTableWord]
  cases decode (tableWord nbits w) <;> simp

/-- Settles O12: the presented word is the head of the inputs, and its clock sample is the one the state holds. -/
theorem presentedTableWordRunsNext : Obligations.PresentedTableWordRunsNext := by
  intro s nbits w i h
  exact step_command (s := s.withFetchWord nbits w) rfl (decodeTableWord_eq_some_iff.mp h)

/-! ### The checksum field -/

/-- The reduced sum has 15 bits (41_frame_validator.md R102). -/
theorem reduceChecksum_lt (acc : Nat) : reduceChecksum acc < 2 ^ 15 :=
  Nat.lt_succ_of_le Nat.and_le_right

/-- Byte 21 is the high byte of the checksum field (30_encoding.md R69). -/
theorem le_frameChecksum_of_topBit {m : Memory} (h : (m.read 21).getLsbD 7 = true) : 2 ^ 15 ≤ frameChecksum m := by
  have hbyte : 2 ^ 7 ≤ (m.read 21).toNat := BitVec.le_toNat_of_msb_true (BitVec.msb_eq_getLsbD_last _ ▸ h)
  have hfield : frameChecksum m = (m.read 20).toNat + 256 * (m.read 21).toNat := memRead_two m 20
  omega

/-- Settles O19: the field is then above every reduced sum (41_frame_validator.md R104). -/
theorem topChecksumBitNeverValidates : Obligations.TopChecksumBitNeverValidates := by
  intro m h
  have hlt := (reduceChecksum_lt (checksumAcc m)).trans_le (le_frameChecksum_of_topBit h)
  rw [validate, beq_eq_false_iff_ne]
  exact hlt.ne

/-! ### The clock sample -/

/-- Settles O49: each of the other commands is a record update that copies `NOW`, SET_PERIOD in both its cases. -/
theorem onlyFeedByteAndTickReadNow : Obligations.OnlyFeedByteAndTickReadNow := by
  intro i s n hfeed htick
  cases i with
  | feedByte b => exact absurd rfl (hfeed b)
  | tick => exact absurd rfl htick
  | setPeriod ms =>
    by_cases hms : ms = 0#32
    · exact ⟨_, if_pos hms, if_pos hms⟩
    · exact ⟨_, if_neg hms, if_neg hms⟩
  | enable | disable | setTarget | setTunings | getRpm | getEnabled | getRotPeriod => exact ⟨_, rfl, rfl⟩

end Sys2Proof.Machine
end

section
/-! SUPPORT. Proofs of the statements of 40_frame_assembler.md: what FEED_BYTE does while seeking, while accumulating
and at the end of a frame, and from it what a stream without the start marker and a whole frame do. -/

namespace Sys2Proof.Machine

/-! ### FEED_BYTE in each state of the assembler -/

theorem execFeedByte_of_seeking (b : Byte) {s : State} (hs : s.asm_state = .seekingStart) :
    execFeedByte b s = .next (respond .ok 0#32 (seekByte b s)) := by
  rcases execFeedByte_cases b s with ⟨-, he⟩ | ⟨hacc, -⟩ | ⟨hacc, -⟩
  · exact he
  all_goals simp [hs] at hacc

theorem execFeedByte_of_accumulating (b : Byte) {s : State} (hs : s.asm_state = .accumulating)
    (hlt : s.asm_idx.toNat < 22) :
    execFeedByte b s = .next (advanceFrame { s with buf := s.buf.write s.asm_idx.toNat b }) := by
  rcases execFeedByte_cases b s with ⟨hseek, -⟩ | ⟨-, -, he⟩ | ⟨-, hout, -⟩
  · simp [hs] at hseek
  · exact he
  · exact absurd hlt hout.not_gt

/-- The last byte of a frame: the pipeline runs on the full buffer, and the frame is cleared (40_frame_assembler.md
R93, R94). -/
theorem execFeedByte_last (b : Byte) {s : State} (hs : s.asm_state = .accumulating) (hidx : s.asm_idx = 21#5) :
    execFeedByte b s =
      .next (respond .ok
        (feedByteValue (frameComplete { s with buf := s.buf.write 21 b, asm_idx := 22#5 }).1 true)
        (clearFrame (frameComplete { s with buf := s.buf.write 21 b, asm_idx := 22#5 }).2)) := by
  rw [execFeedByte_of_accumulating b hs (by simp [hidx])]
  rcases advanceFrame_cases { s with buf := s.buf.write s.asm_idx.toNat b } with ⟨hne, -⟩ | ⟨-, he⟩
  · simp [hidx] at hne
  · rw [he, hidx]
    rfl

/-- Settles O13: a byte while seeking is the start marker or is discarded. -/
theorem seekingWaitsForTheStartMarker : Obligations.SeekingWaitsForTheStartMarker := by
  intro b s hs
  have hexec : exec (.feedByte b) s = _ := execFeedByte_of_seeking b hs
  rw [hexec]
  rcases seekByte_cases b s with ⟨rfl, he⟩ | ⟨hb, he⟩ <;> rw [he]
  · exact ⟨fun hne => absurd rfl hne, fun _ => rfl⟩
  · exact ⟨fun _ => rfl, fun heq => absurd heq hb⟩

/-- Settles O14: a cursor below 21 moves to a cursor below 22, which ends no frame. -/
theorem accumulatingStoresAtTheCursor : Obligations.AccumulatingStoresAtTheCursor := by
  intro b s hs hlt
  have hexec : exec (.feedByte b) s = _ := execFeedByte_of_accumulating b hs (by omega)
  rw [hexec]
  rcases advanceFrame_cases { s with buf := s.buf.write s.asm_idx.toNat b } with ⟨-, he⟩ | ⟨hend, -⟩
  · rw [he]
    rfl
  · change (s.asm_idx + 1#5).toNat = 22 at hend
    bv_omega

/-! ### Streams of FEED_BYTE commands, and runs -/

/-- The inputs that feed the given bytes, each with its clock sample. -/
def feedInputs (bytes : List (Byte × U32)) : List Input :=
  bytes.map fun p => .command (encode (.feedByte p.1)) p.2

theorem feedInputs_drop {bytes : List (Byte × U32)} {k : Nat} (h : k < bytes.length) :
    feedInputs (bytes.drop k) =
      .command (encode (.feedByte bytes[k].1)) bytes[k].2 :: feedInputs (bytes.drop (k + 1)) := by
  rw [List.drop_eq_getElem_cons h]
  rfl

/-- A presented FEED_BYTE is what the step runs. -/
theorem step_feedByte {s : State} {b : Byte} {now : U32} {rest : List Input}
    (h : s.pending = .command (encode (.feedByte b)) now :: rest) :
    step s = exec (.feedByte b) (beginCommand now rest s) :=
  step_command h (decodeInvertsEncode _)

/-- `k + 1` steps are `k` steps and then one. -/
theorem run_succ_of_run {k : Nat} {s t : State} (h : Sys2Proof.core.run k s = .next t) :
    Sys2Proof.core.run (k + 1) s = step t := by
  induction k generalizing s with
  | zero =>
    have hst : s = t := Host.Outcome.next.inj h
    rw [run_succ, hst]
    cases step t <;> rfl
  | succ k ih =>
    rw [run_succ] at h ⊢
    cases hs : step s with
    | next u => exact ih (by rw [hs] at h; exact h)
    | fault f => simp [hs] at h
    | refused r => simp [hs] at h

/-- Where every state with `P` steps to another, every run goes on with `P`. -/
theorem run_progress {P : State → Prop} (hstep : ∀ s, P s → ∃ t, step s = .next t ∧ P t) (k : Nat) {s : State}
    (h : P s) : ∃ t, Sys2Proof.core.run k s = .next t ∧ P t := by
  induction k with
  | zero => exact ⟨s, rfl, h⟩
  | succ k ih =>
    obtain ⟨u, hu, hPu⟩ := ih
    obtain ⟨t, ht, hPt⟩ := hstep u hPu
    exact ⟨t, (run_succ_of_run hu).trans ht, hPt⟩

/-! ### A stream without the start marker -/

/-- `u` is still seeking with the buffer and the speed of `s` and no event, and only bytes other than the start marker
are still to come. -/
def StillSeeking (s u : State) : Prop :=
  (∃ bytes : List (Byte × U32), (∀ p ∈ bytes, p.1 ≠ 0xFA#8) ∧ u.pending = feedInputs bytes) ∧
    u.asm_state = .seekingStart ∧ u.buf = s.buf ∧ u.rpm_q6 = s.rpm_q6 ∧ u.events = []

/-- The next byte is discarded, or the stream is over and the block idles (40_frame_assembler.md R96). -/
theorem StillSeeking.step {s u : State} (h : StillSeeking s u) : ∃ v, step u = .next v ∧ StillSeeking s v := by
  obtain ⟨⟨bytes, hbytes, hpending⟩, hseek, hbuf, hrpm, hevents⟩ := h
  cases bytes with
  | nil => exact ⟨u, step_idle hpending, ⟨[], hbytes, hpending⟩, hseek, hbuf, hrpm, hevents⟩
  | cons p bytes =>
    obtain ⟨hp, hrest⟩ := List.forall_mem_cons.mp hbytes
    have hdiscard := (seekingWaitsForTheStartMarker p.1 (beginCommand p.2 (feedInputs bytes) u) hseek).1 hp
    exact ⟨_, (step_feedByte hpending).trans hdiscard, ⟨bytes, hrest, rfl⟩, hseek, hbuf, hrpm, rfl⟩

/-- Settles O26: seeking on is an invariant of the run. -/
theorem streamWithoutMarkerEmitsNothing : Obligations.StreamWithoutMarkerEmitsNothing := by
  intro bytes s hseek hevents hbytes hpending k
  have hstart : StillSeeking s s := ⟨⟨bytes, hbytes, hpending⟩, hseek, rfl, rfl, hevents⟩
  obtain ⟨t, ht, -, htseek, hbuf, hrpm, htevents⟩ := run_progress (fun _ => StillSeeking.step) k hstart
  exact ⟨t, ht, htseek, hbuf, hrpm, htevents⟩

/-! ### The buffer while a frame is fed -/

/-- `n` holds the first `k` bytes of `m` and nothing else. -/
def Memory.HoldsFirst (m : Memory) (k : Nat) (n : Memory) : Prop :=
  n.wf ∧ ∀ a, n.read a = if a < k then m.read a else 0#8

theorem Memory.holdsFirst_zero (m : Memory) : m.HoldsFirst 0 [] := ⟨Memory.wf_nil, fun _ => rfl⟩

/-- Storing the next byte of `m` makes it one byte more. -/
theorem Memory.HoldsFirst.write {m n : Memory} {k : Nat} (h : m.HoldsFirst k n) (hk : k < 22) :
    m.HoldsFirst (k + 1) (n.write k (m.read k)) := by
  obtain ⟨hwf, hread⟩ := h
  refine ⟨Memory.write_wf _ hwf hk, fun a => ?_⟩
  rw [Memory.read_write k _ hwf, hread]
  rcases Nat.lt_trichotomy a k with hlt | rfl | hgt
  · rw [if_neg hlt.ne, if_pos hlt, if_pos (by omega)]
  · rw [if_pos rfl, if_pos (by omega)]
  · rw [if_neg hgt.ne', if_neg (by omega), if_neg (by omega)]

/-- All 22 bytes are the whole buffer. -/
theorem Memory.HoldsFirst.eq {m n : Memory} (h : m.HoldsFirst 22 n) (hm : m.wf) : n = m := by
  obtain ⟨hn, hread⟩ := h
  refine Memory.eq_of_read hn hm fun a => (hread a).trans ?_
  split_ifs with ha
  · rfl
  · exact (Memory.read_eq_zero fun c hc heq => ha (by rw [← heq]; exact (hm.2 c hc).2)).symm

/-! ### One run of the pipeline -/

/-- The speed field is bytes 3 and 2 (30_encoding.md R67). -/
theorem frameSpeed_eq (m : Memory) : frameSpeed m = (m.read 3 ++ m.read 2 : BitVec (8 + 8)) := by
  rw [frameSpeed, memRead_two, word16]

/-- The pipeline does what `OneDecoderRun` says, seen from any earlier state with the same parameters and decoder's
registers. -/
theorem frameComplete_oneDecoderRun {s u : State} (hevents : u.events = []) (hregs : SameDecoderRegisters s u)
    (hparams : u.params = s.params) : OneDecoderRun u.buf u.now s (frameComplete u).2 := by
  rcases frameComplete_cases u with ⟨hv, he⟩ | ⟨hv, hpolicy, hrange, he⟩ | ⟨hv, haccept, he⟩ <;> rw [he]
  case inl =>
    refine ⟨fun _ => ⟨by rw [emit_events, hevents]; rfl, hregs⟩, fun hv' => ?_, fun hv' => ?_⟩ <;>
      simp [hv] at hv'
  case inr.inl =>
    refine ⟨fun hv' => ?_, fun _ _ _ => ⟨by rw [emit_events, hevents]; rfl, hregs⟩, fun _ hor => ?_⟩
    · simp [hv] at hv'
    · simp [← hparams, hpolicy, ← indexInRange_iff, hrange] at hor
  case inr.inr =>
    obtain ⟨-, hlast, hperiod⟩ := hregs
    refine ⟨fun hv' => ?_, fun _ hreject hout => ?_, fun _ _ => ?_⟩
    · simp [hv] at hv'
    · rw [hparams, hreject, indexInRange_iff] at haccept
      rcases haccept with hp | ⟨hlo, hhi⟩
      · cases hp
      · omega
    · rw [decodeFrame_eq]
      simp [hevents, frameSpeed_eq, firstAngle_eq_zero, elapsed, hlast, hperiod]

/-- Responding and clearing the frame away leave the events and the decoder's registers. -/
theorem OneDecoderRun.cleared {m : Memory} {now v : U32} {st : Status} {s t : State} (h : OneDecoderRun m now s t) :
    OneDecoderRun m now s (respond st v (clearFrame t)) := h

/-! ### A frame, byte by byte -/

/-- After `k` bytes of the frame `m`, fed from the state `s` on, the block is in the state `u` with the inputs `todo`
to come: the bytes are in the buffer, and nothing was emitted or decoded. -/
structure Accumulated (m : Memory) (s : State) (k : Nat) (todo : List Input) (u : State) : Prop where
  accumulating : u.asm_state = .accumulating
  cursor : u.asm_idx.toNat = k
  stored : m.HoldsFirst k u.buf
  pending : u.pending = todo
  events : u.events = []
  registers : SameDecoderRegisters s u
  params : u.params = s.params

/-- The start marker begins the frame (40_frame_assembler.md R91). -/
theorem step_first_accumulated {m : Memory} {s : State} {now : U32} {todo : List Input}
    (hseek : s.asm_state = .seekingStart) (hbuf : s.buf = []) (hmarker : m.read 0 = 0xFA#8)
    (hpending : s.pending = .command (encode (.feedByte (m.read 0))) now :: todo) :
    ∃ u, step s = .next u ∧ Accumulated m s 1 todo u := by
  have hexec := (seekingWaitsForTheStartMarker (m.read 0) (beginCommand now todo s) hseek).2 hmarker
  have hstored : m.HoldsFirst 1 (s.buf.write 0 0xFA#8) := by
    simpa [hbuf, hmarker] using m.holdsFirst_zero.write (by decide)
  exact ⟨_, (step_feedByte hpending).trans hexec, rfl, rfl, hstored, rfl, rfl, ⟨rfl, rfl, rfl⟩, rfl⟩

/-- A byte before the last goes to the cursor (40_frame_assembler.md R92, R95). -/
theorem Accumulated.store {m : Memory} {s u : State} {k : Nat} {now : U32} {todo : List Input}
    (h : Accumulated m s k (.command (encode (.feedByte (m.read k))) now :: todo) u) (hk : k < 21) :
    ∃ v, step u = .next v ∧ Accumulated m s (k + 1) todo v := by
  have hcursor := h.cursor
  have hexec := accumulatingStoresAtTheCursor (m.read k) (beginCommand now todo u) h.accumulating
    (hcursor.trans_lt hk)
  have hnext : (u.asm_idx + 1#5).toNat = k + 1 := by bv_omega
  have hstored : m.HoldsFirst (k + 1) (u.buf.write u.asm_idx.toNat (m.read k)) := by
    rw [hcursor]
    exact h.stored.write (by omega)
  exact ⟨_, (step_feedByte h.pending).trans hexec, h.accumulating, hnext, hstored, rfl, rfl, h.registers, h.params⟩

/-- The last byte runs the pipeline on the frame and clears it away (40_frame_assembler.md R93, R94). -/
theorem Accumulated.complete {m : Memory} {s u : State} {now : U32} {todo : List Input}
    (h : Accumulated m s 21 (.command (encode (.feedByte (m.read 21))) now :: todo) u) (hm : m.wf) :
    ∃ t, step u = .next t ∧ t.asm_state = .seekingStart ∧ t.asm_idx = 0#5 ∧ t.buf = [] ∧
      t.pending = todo ∧ OneDecoderRun m now s t := by
  have hidx : u.asm_idx = 21#5 := BitVec.eq_of_toNat_eq h.cursor
  have hexec := execFeedByte_last (m.read 21) (s := beginCommand now todo u) h.accumulating hidx
  have hfull : (beginCommand now todo u).buf.write 21 (m.read 21) = m := (h.stored.write (by decide)).eq hm
  rw [hfull] at hexec
  have hrun := frameComplete_oneDecoderRun
    (u := { beginCommand now todo u with buf := m, asm_idx := 22#5 }) rfl h.registers h.params
  refine ⟨_, (step_feedByte h.pending).trans hexec, rfl, rfl, rfl, ?_, OneDecoderRun.cleared hrun⟩
  rw [frameComplete_eq_withFrameOf]
  rfl

/-- The first 21 bytes of a frame, by induction over the cursor. -/
theorem run_accumulated {frame : List (Byte × U32)} {rest : List Input} {s : State} {m : Memory}
    (hseek : s.asm_state = .seekingStart) (hbuf : s.buf = []) (hlen : frame.length = 22)
    (hbytes : ∀ (j : Nat) (h : j < frame.length), m.read j = frame[j].1) (hmarker : m.read 0 = 0xFA#8)
    (hpending : s.pending = feedInputs frame ++ rest) {k : Nat} (hk : 1 ≤ k) (hlt : k < 22) :
    ∃ u, Sys2Proof.core.run k s = .next u ∧ Accumulated m s k (feedInputs (frame.drop k) ++ rest) u := by
  have htodo : ∀ j (h : j < frame.length), feedInputs (frame.drop j) ++ rest =
      .command (encode (.feedByte (m.read j))) frame[j].2 :: (feedInputs (frame.drop (j + 1)) ++ rest) := fun j h => by
    rw [feedInputs_drop h, hbytes j h, List.cons_append]
  induction k, hk using Nat.le_induction with
  | base =>
    obtain ⟨u, hu, hacc⟩ := step_first_accumulated hseek hbuf hmarker (hpending.trans (htodo 0 (by omega)))
    exact ⟨u, (run_succ_of_run rfl).trans hu, hacc⟩
  | succ k _ ih =>
    obtain ⟨u, hu, hacc⟩ := ih (by omega)
    rw [htodo k (by omega)] at hacc
    obtain ⟨v, hv, hnext⟩ := hacc.store (by omega)
    exact ⟨v, (run_succ_of_run hu).trans hv, hnext⟩

/-- Settles O25: 21 bytes accumulate the frame, and the last one completes it. -/
theorem twentyTwoBytesMakeOneFrame : Obligations.TwentyTwoBytesMakeOneFrame := by
  intro frame rest s m last hseek _ hbuf hlen hlast hm hbytes hmarker hpending
  have hrun : ∀ {k}, 1 ≤ k → k < 22 → ∃ u, Sys2Proof.core.run k s = .next u ∧
      Accumulated m s k (feedInputs (frame.drop k) ++ rest) u :=
    run_accumulated hseek hbuf hlen hbytes hmarker hpending
  constructor
  · intro k hk hlt
    obtain ⟨u, hu, hacc⟩ := hrun hk hlt
    exact ⟨u, hu, hacc.accumulating, hacc.cursor, hacc.events, hacc.registers⟩
  · obtain ⟨u, hu, hacc⟩ := hrun (k := 21) (by decide) (by decide)
    obtain ⟨h21, rfl⟩ := List.getElem?_eq_some_iff.mp hlast
    rw [feedInputs_drop h21, List.drop_eq_nil_of_le hlen.le, ← hbytes 21 h21] at hacc
    obtain ⟨t, ht, htseek, hidx, htbuf, htpending, hdecoded⟩ := hacc.complete hm
    exact ⟨t, (run_succ_of_run hu).trans ht, htseek, hidx, htbuf, htpending, hdecoded⟩

end Sys2Proof.Machine
end

section
/-! SUPPORT. Proofs of the statements of 41_frame_validator.md: the validator's fold as a weighted sum, the reduction in
quotient and remainder, and the widths of both. -/

namespace Sys2Proof.Machine

/-! ### The fold, word by word -/

/-- The accumulator after the first `n` words (41_frame_validator.md R101), the induction's subject; `checksumAcc` is
the one after ten. -/
def accAfter (m : Memory) (n : Nat) : Nat :=
  ((List.range n).map fun k => memRead m (2 * k) 2).foldl (fun acc w => (acc <<< 1) + w) 0

theorem checksumAcc_eq_accAfter (m : Memory) : checksumAcc m = accAfter m 10 := rfl

@[simp] theorem accAfter_zero (m : Memory) : accAfter m 0 = 0 := rfl

theorem accAfter_succ (m : Memory) (n : Nat) : accAfter m (n + 1) = 2 * accAfter m n + memRead m (2 * n) 2 := by
  simp [accAfter, List.range_succ, Nat.shiftLeft_eq, Nat.mul_comm]

/-- The `d` words still to come weigh the first `n` with `2 ^ d`: word `k` then has its final weight. -/
theorem accAfter_mul_two_pow (m : Memory) {n d : Nat} (h : n + d = 10) :
    accAfter m n * 2 ^ d = ((List.range n).map fun k => memRead m (2 * k) 2 * 2 ^ (9 - k)).sum := by
  induction n generalizing d with
  | zero => simp
  | succ n ih =>
    have hweight : 9 - n = d := by omega
    rw [List.sum_range_succ, ← ih (d := d + 1) (by omega), accAfter_succ, hweight]
    ring

/-- `n` words of 16 bits fill at most `0xFFFF * (2 ^ n - 1)` (41_frame_validator.md R103). -/
theorem accAfter_le (m : Memory) (n : Nat) : accAfter m n ≤ 0xFFFF * (2 ^ n - 1) := by
  induction n with
  | zero => rfl
  | succ n ih =>
    have hword := memRead_two_lt m (2 * n)
    have hpos := Nat.two_pow_pos n
    rw [accAfter_succ, pow_succ]
    omega

/-! ### The sum and the reduction -/

theorem checksumAcc_eq_weightedSum (m : Memory) : checksumAcc m = weightedSum m := by
  have h := accAfter_mul_two_pow m (n := 10) (d := 0) rfl
  rw [pow_zero, mul_one, ← checksumAcc_eq_accAfter] at h
  simpa only [weightedSum, memRead_two] using h

theorem checksumAcc_le (m : Memory) : checksumAcc m ≤ 67042305 := accAfter_le m 10

/-- The mask keeps the remainder modulo `2 ^ 15` (41_frame_validator.md R102). -/
theorem and_csumMask (x : Nat) : x &&& Config.CSUM_MASK = x % 32768 := Nat.and_two_pow_sub_one_eq_mod x 15

theorem shiftRight_fifteen (x : Nat) : x >>> 15 = x / 32768 := Nat.shiftRight_eq_div_pow x 15

theorem reduceChecksum_eq (acc : Nat) : reduceChecksum acc = (acc % 32768 + acc / 32768) % 32768 := by
  rw [reduceChecksum, and_csumMask, and_csumMask, shiftRight_fifteen]

theorem validate_iff (m : Memory) : validate m = true ↔ reduceChecksum (checksumAcc m) = frameChecksum m := beq_iff_eq

/-- Settles O17: each word doubles what the words before it weigh, and the mask and the shift are the remainder and the
quotient by `2 ^ 15`. -/
theorem validatorIsTheWeightedChecksum : Obligations.ValidatorIsTheWeightedChecksum := by
  intro m
  refine ⟨checksumAcc_eq_weightedSum m, ?_⟩
  rw [validate_iff, checksumAcc_eq_weightedSum, reduceChecksum_eq, frameChecksum, memRead_two]

/-! ### The widths -/

/-- Twenty bytes 0xFF from offset 0: every word is 0xFFFF (41_frame_validator.md R104, 95_test_vectors.md V-VAL-4). -/
def allOnesPayload : Memory := (List.range 20).map fun a => (a, 0xFF#8)

/-- Settles O18: the accumulator's bound by induction over the words, the others from it in quotient and remainder; a
payload of 0xFF bytes attains it. -/
theorem checksumSumsStayWithinTheirWidths : Obligations.ChecksumSumsStayWithinTheirWidths := by
  refine ⟨fun m => ?_, allOnesPayload, by decide, by decide⟩
  have hacc := checksumAcc_le m
  rw [and_csumMask, shiftRight_fifteen]
  omega

end Sys2Proof.Machine
end

section
/-! SUPPORT. Proofs of the statements of 42_frame_decoder.md: the event fields in terms of the frame's bytes, and what
the last byte of a frame does where the frame is rejected and where it is accepted. -/

namespace Sys2Proof.Machine

/-! ### Angles -/

theorem groupAngle_mem (m : Memory) : -640 ≤ groupAngle m ∧ groupAngle m ≤ 380 := by
  have := (m.read 1).isLt
  rw [groupAngle]
  omega

/-- An angle in the range of an s16 is what its field holds (42_frame_decoder.md R112, R121). -/
theorem toInt_angleField {a : Int} (hlo : -32768 ≤ a) (hhi : a < 32768) : (angleField a).toInt = a :=
  BitVec.toInt_ofInt_eq_self (by decide) hlo hhi

theorem quadSample_angle (m : Memory) (i : Nat) : (quadSample m i).angle = angleField (groupAngle m + i) := by
  simp only [quadSample, firstAngle_eq, groupAngle]

/-- Settles O23: no index byte takes an angle out of the range of an s16. -/
theorem sampleAnglesAreExact : Obligations.SampleAnglesAreExact := by
  intro m i hi
  obtain ⟨hlo, hhi⟩ := groupAngle_mem m
  have hangle : (quadSample m i).angle.toInt = groupAngle m + i := by
    rw [quadSample_angle]
    exact toInt_angleField (by omega) (by omega)
  refine ⟨hangle, fun hmin hmax => ?_⟩
  rw [hangle, groupAngle]
  omega

/-! ### The events of an accepted frame, byte by byte -/

theorem quadQuality_eq (m : Memory) (i : Nat) :
    quadQuality m i = (m.read (4 + 4 * i + 3) ++ m.read (4 + 4 * i + 2) : BitVec (8 + 8)) := by
  rw [quadQuality, memRead_two, word16]
  rfl

theorem quadSample_eq_sampleOfBytes (m : Memory) (i : Nat) : quadSample m i = sampleOfBytes m i := by
  simp only [quadSample, quadQuality_eq, firstAngle_eq]
  rfl

theorem acceptedEvents_eq (m : Memory) :
    acceptedEvents m =
      [.rawFrame ⟨true, 0#2, BitVec.ofInt 16 (groupAngle m), 22#5, Vector.ofFn fun j => m.read j.val⟩,
        .sample (sampleOfBytes m 0), .sample (sampleOfBytes m 1), .sample (sampleOfBytes m 2),
        .sample (sampleOfBytes m 3)] := by
  simp only [acceptedEvents, quadSample_eq_sampleOfBytes, successEvent, firstAngle_eq]
  rfl

/-! ### Which frames are accepted -/

/-- The frame `m` validates, and its index byte is in range or the policy `p` accepts every index (42_frame_decoder.md
R111). -/
def FrameAccepted (p : IdxPolicy) (m : Memory) : Prop :=
  validate m = true ∧ (p = .accept ∨ (0xA0 ≤ (m.read 1).toNat ∧ (m.read 1).toNat ≤ 0xF9))

/-- Why a frame that is not accepted is rejected: its index where it validates, else its checksum, which is tested
first (42_frame_decoder.md R111, R120). -/
def rejectionCause (m : Memory) : BitVec 2 := if validate m then 2#2 else 1#2

theorem frameComplete_of_accepted {u : State} (h : FrameAccepted u.params.idxPolicy u.buf) :
    frameComplete u = (true, decodeFrame u) := by
  obtain ⟨hvalid, hindex⟩ := h
  rw [← indexInRange_iff] at hindex
  rcases frameComplete_cases u with ⟨hv, -⟩ | ⟨-, hreject, hrange, -⟩ | ⟨-, -, he⟩
  · simp [hv] at hvalid
  · simp [hreject, hrange] at hindex
  · exact he

theorem frameComplete_of_not_accepted {u : State} (h : ¬FrameAccepted u.params.idxPolicy u.buf) :
    frameComplete u = (false, emit (failureEvent (rejectionCause u.buf)) u) := by
  rcases frameComplete_cases u with ⟨hv, he⟩ | ⟨hv, -, -, he⟩ | ⟨hv, hindex, -⟩
  · rw [he, rejectionCause, hv, if_neg Bool.false_ne_true]
  · rw [he, rejectionCause, hv, if_pos rfl]
  · rw [indexInRange_iff] at hindex
    exact absurd ⟨hv, hindex⟩ h

/-! ### The last byte of a frame -/

/-- A rejected frame changes the assembler alone (60_exceptions.md R191, R192). -/
theorem exec_lastByte_rejected {b : Byte} {s : State} {m : Memory} (hs : s.asm_state = .accumulating)
    (hidx : s.asm_idx = 21#5) (hm : m = s.buf.write 21 b) (h : ¬FrameAccepted s.params.idxPolicy m) :
    exec (.feedByte b) s = .next (afterFrame 1#32 (rejection (rejectionCause m)) s) := by
  have hexec : exec (.feedByte b) s = _ := execFeedByte_last b hs hidx
  rw [hexec, ← hm, frameComplete_of_not_accepted (u := { s with buf := m, asm_idx := 22#5 }) h]
  simp only [feedByteValue_rejected]
  rfl

/-- Settles O22: the pipeline decodes the frame, and the model's operand forms are the bytes of the statement. -/
theorem acceptedFrameIsDecoded : Obligations.AcceptedFrameIsDecoded := by
  intro b s m hs hidx hm hvalid hindex
  have hexec : exec (.feedByte b) s = _ := execFeedByte_last b hs hidx
  rw [hexec, ← hm, frameComplete_of_accepted (u := { s with buf := m, asm_idx := 22#5 }) ⟨hvalid, hindex⟩,
    decodeFrame_eq, ← acceptedEvents_eq]
  simp only [feedByteValue_accepted, frameSpeed_eq, firstAngle_eq_zero]
  rfl

/-- Settles O21: a frame with its index out of range is accepted under ACCEPT alone. -/
theorem indexOutOfRangeFollowsThePolicy : Obligations.IndexOutOfRangeFollowsThePolicy := by
  intro b s hs hidx hvalid hout
  constructor
  · intro hreject
    have hnot : ¬FrameAccepted s.params.idxPolicy (s.buf.write 21 b) := by
      rw [hreject]
      rintro ⟨-, hpolicy | ⟨hlo, hhi⟩⟩
      · cases hpolicy
      · omega
    have hexec := exec_lastByte_rejected hs hidx rfl hnot
    rwa [rejectionCause, hvalid, if_pos rfl] at hexec
  · intro haccept
    have hexec := acceptedFrameIsDecoded b s _ hs hidx rfl hvalid (.inl haccept)
    rw [← acceptedEvents_eq] at hexec
    exact ⟨_, hexec, rfl, rfl⟩

/-! ### Two states with the same frame -/

/-- A canonical buffer holds nothing outside the 22 bytes (20_memory.md R50). -/
theorem Memory.read_outside {m : Memory} (h : m.wf) {a : Nat} (ha : 22 ≤ a) : m.read a = 0#8 :=
  Memory.read_eq_zero fun c hc heq => absurd (h.2 c hc).2 (by rw [heq]; exact ha.not_gt)

/-- Canonical buffers with the same first 21 bytes are the same frame once the last byte is stored. -/
theorem Memory.write_last_congr {m n : Memory} (b : Byte) (hm : m.wf) (hn : n.wf)
    (h : ∀ a, a < 21 → m.read a = n.read a) : m.write 21 b = n.write 21 b := by
  refine Memory.eq_of_read (Memory.write_wf b hm (by decide)) (Memory.write_wf b hn (by decide)) fun a => ?_
  rw [Memory.read_write 21 b hm, Memory.read_write 21 b hn]
  rcases Nat.lt_trichotomy a 21 with hlt | rfl | hgt
  · rw [h a hlt]
  · rfl
  · rw [Memory.read_outside hm hgt, Memory.read_outside hn hgt]

/-- Settles O24: both states complete the same frame, so both reject it for the same cause or both decode it. -/
theorem decodingDependsOnTheFrameAlone : Obligations.DecodingDependsOnTheFrameAlone := by
  intro b s s' hs hidx hs' hidx' hwf hwf' hbytes hnow hlast hpolicy
  have hm := Memory.write_last_congr b hwf hwf' hbytes
  by_cases haccept : FrameAccepted s.params.idxPolicy (s.buf.write 21 b)
  · obtain ⟨hvalid, hindex⟩ := haccept
    have hdecoded := acceptedFrameIsDecoded b s _ hs hidx rfl hvalid hindex
    have hdecoded' := acceptedFrameIsDecoded b s' _ hs' hidx' hm hvalid (hpolicy ▸ hindex)
    refine ⟨_, _, _, hdecoded, hdecoded', rfl, rfl, rfl, ?_, fun _ => rfl, fun _ hgroup => ?_⟩
    · simp only [hnow, hlast]
    · have hgroup' : (s.buf.write 21 b).read 1 = 0xA0#8 := (Memory.read_write_other b (by decide)).trans hgroup
      simp only [hgroup', hnow, hlast, if_true]
  · have hrejected := exec_lastByte_rejected hs hidx rfl haccept
    have hrejected' := exec_lastByte_rejected hs' hidx' hm (hpolicy ▸ haccept)
    have hanswer : (some ⟨.ok, 1#32⟩ : Option Response) ≠ some ⟨.ok, 3#32⟩ := by decide
    exact ⟨_, _, _, hrejected, hrejected', rfl, rfl, rfl, hlast, fun h => absurd h hanswer,
      fun h => absurd h hanswer⟩

end Sys2Proof.Machine
end

section
/-! SUPPORT. Proofs of the statements of 43_speed_regulator.md: the regulator's commands, what TICK leaves alone and
when it computes, the terms of the PID step under both settings of NUMERICS, and the binary64 rounding. -/

namespace Sys2Proof.Machine

/-! ### The commands of the configuration, ENABLE and DISABLE -/

/-- Settles O27: SET_TARGET stores the default or the operand by the sign of the operand. -/
theorem setTargetStoresOrSubstitutes : Obligations.SetTargetStoresOrSubstitutes := by
  intro a s
  have hexec : exec (.setTarget a) s =
      .next (respond .ok (if a.toInt ≤ 0 then s.params.spResetQ6 else a)
        { s with sp_q6 := if a.toInt ≤ 0 then s.params.spResetQ6 else a }) := rfl
  refine ⟨fun h => ?_, fun h => ?_⟩
  · rw [hexec, if_pos h]
    rfl
  · rw [hexec, if_neg h.not_ge]
    rfl

/-- Settles O28: SET_TUNINGS is one record update. -/
theorem setTuningsStoresTheGains : Obligations.SetTuningsStoresTheGains := fun _ _ _ _ => rfl

/-- Settles O29: SET_PERIOD rejects 0 and stores every other period. -/
theorem setPeriodStoresOrRejectsZero : Obligations.SetPeriodStoresOrRejectsZero := by
  intro ms s
  rcases execSetPeriod_cases ms s with ⟨hms, he⟩ | ⟨hms, he⟩
  · exact ⟨fun _ => he, fun hne => absurd hms hne⟩
  · exact ⟨fun hzero => absurd hzero hms, fun _ => he⟩

/-- Settles O30: ENABLE is one record update and one event of the driver. -/
theorem enableResumesTheOutput : Obligations.EnableResumesTheOutput := fun _ => rfl

/-- Settles O31: DISABLE is one record update and one event of the driver. -/
theorem disableForcesDutyZero : Obligations.DisableForcesDutyZero := fun _ => rfl

/-! ### TICK -/

/-- Settles O34: TICK is not one of the commands that own these registers (10_state.md R43). -/
theorem tickLeavesTheRestAlone : Obligations.TickLeavesTheRestAlone := by
  intro s
  have htick : exec .tick s = .next _ := execTick_eq s
  obtain ⟨hframe, hsp, hgains, hperiod, -, hmotor, -, -, hports⟩ :=
    registersAreWrittenOnlyByTheirCommands .tick s _ htick
  obtain ⟨hstate, hidx, hbuf, hrpm, hlast, hrot⟩ := hframe (by simp)
  obtain ⟨hkp, hki, hkd⟩ := hgains (by simp)
  exact ⟨_, htick, hstate, hidx, hbuf, hrpm, hlast, hrot, hsp (by simp), hkp, hki, hkd, hperiod (by simp),
    hmotor (by simp) (by simp), hports⟩

theorem pidCompute_computedTo (s : State) : ComputedTo s (pidCompute s) (integralTerm s) (pidOutput s) := by
  rw [pidCompute_eq]
  refine ⟨rfl, rfl, rfl, rfl, rfl, rfl, ?_⟩
  by_cases hu : pidOutput s = s.pwm_duty <;> simp [hu]

/-- Settles O35: the watchdog step writes none of the regulator's registers, so TICK leaves what the PID step left. -/
theorem computeHappensExactlyWhenDue : Obligations.ComputeHappensExactlyWhenDue := by
  intro s
  obtain ⟨last, count, r, ⟨hdue, he⟩ | ⟨hdue, he⟩⟩ := execTick_cases s
  · obtain ⟨hmotor, helapsed⟩ := (pidDue_iff s).mp hdue
    refine ⟨fun _ => ⟨_, he, pidCompute_computedTo s⟩, ?_⟩
    rintro (hoff | hearly)
    · simp [hmotor] at hoff
    · exact absurd helapsed hearly.not_ge
  · refine ⟨fun h => ?_, fun _ => ⟨_, he, rfl, rfl, rfl, rfl, rfl, rfl, rfl⟩⟩
    exact absurd ((pidDue_iff s).mpr h) (by simp [hdue])

/-! ### The nearest number -/

/-- A multiple of `x` within half of `x` is a nearest multiple: another one is at least `x` away from it. -/
theorem nearest_multiple {x q : Rat} {k : Int} (hx : 0 < x) (h : |(k : Rat) * x - q| ≤ x / 2) (j : Int) :
    |(k : Rat) * x - q| ≤ |(j : Rat) * x - q| := by
  rcases eq_or_ne k j with rfl | hne
  · exact le_refl _
  · have hkj : (1 : Rat) ≤ |(k : Rat) - j| := by
      exact_mod_cast Int.one_le_abs (sub_ne_zero.mpr hne)
    have hstep : x ≤ |(k : Rat) * x - j * x| := by
      rw [← sub_mul, abs_mul, abs_of_pos hx]
      exact le_mul_of_one_le_left hx.le hkj
    have htri := abs_sub_le ((k : Rat) * x) q (j * x)
    rw [abs_sub_comm q] at htri
    linarith

/-- A multiple of a power of two is a multiple of every smaller one. -/
theorem exists_multiple_of_le {t u : Int} (h : t ≤ u) (k : Int) :
    ∃ j : Int, (k : Rat) * 2 ^ u = (j : Rat) * 2 ^ t := by
  obtain ⟨n, rfl⟩ := Int.le.dest h
  refine ⟨k * 2 ^ n, ?_⟩
  rw [zpow_add₀ (by norm_num), zpow_natCast]
  push_cast
  ring

/-- One of `p` and `-p` lies towards `q`, where the magnitude of `q` has reached `p`. -/
theorem exists_sign_abs_sub_eq {p q : Rat} (h : p ≤ |q|) : ∃ e : Int, |(e : Rat) * p - q| = |q| - p := by
  rcases le_total 0 q with hq | hq
  · rw [abs_of_nonneg hq] at h ⊢
    exact ⟨1, by rw [Int.cast_one, one_mul, abs_sub_comm, abs_of_nonneg (sub_nonneg.mpr h)]⟩
  · rw [abs_of_nonpos hq] at h ⊢
    refine ⟨-1, ?_⟩
    rw [Int.cast_neg, Int.cast_one, neg_one_mul, abs_of_nonneg (by linarith)]
    ring

/-- No number of 53 bits is nearer to `q` than its rounding (43_speed_regulator.md R131): one whose last place is
smaller than that of the rounding is below the power of two that `q` has reached, and so no nearer than that power. -/
theorem roundBinary64_nearest (q : Rat) {k t : Int} (hk : |k| < 2 ^ 53) (ht : -1074 ≤ t) :
    |roundBinary64 q - q| ≤ |(k : Rat) * 2 ^ t - q| := by
  obtain ⟨r, u, hr, -, -, hnear, hbig⟩ := roundBinary64_spec q
  rw [hr] at hnear ⊢
  have hgrid := nearest_multiple (by positivity) hnear
  rcases le_or_gt u t with hut | htu
  · obtain ⟨j, hj⟩ := exists_multiple_of_le hut k
    rw [hj]
    exact hgrid j
  · have hkt : |(k : Rat) * 2 ^ t| ≤ 2 ^ (u + 52) := by
      have hkq : |(k : Rat)| ≤ 2 ^ (53 : Int) := by exact_mod_cast hk.le
      rw [abs_mul, abs_of_pos (show (0 : Rat) < 2 ^ t by positivity)]
      calc |(k : Rat)| * 2 ^ t ≤ 2 ^ (53 : Int) * 2 ^ t := by gcongr
        _ = 2 ^ (53 + t) := (zpow_add₀ (by norm_num) _ _).symm
        _ ≤ 2 ^ (u + 52) := zpow_le_zpow_right₀ (by norm_num) (by omega)
    obtain ⟨e, he⟩ := exists_sign_abs_sub_eq (hbig.resolve_left (by omega))
    obtain ⟨j, hj⟩ := exists_multiple_of_le (show u ≤ u + 52 by omega) e
    calc |(r : Rat) * 2 ^ u - q| ≤ |(e : Rat) * 2 ^ (u + 52) - q| := hj ▸ hgrid j
      _ = |q| - 2 ^ (u + 52) := he
      _ ≤ |q| - |(k : Rat) * 2 ^ t| := by gcongr
      _ ≤ |q - (k : Rat) * 2 ^ t| := abs_sub_abs_le_abs_sub q _
      _ = |(k : Rat) * 2 ^ t - q| := abs_sub_comm q _

/-- Settles O38: the answer's form and its range are the rounding's laws; no number of that form is nearer. -/
theorem roundingIsToNearest : Obligations.RoundingIsToNearest :=
  fun q => ⟨roundBinary64_mem q, isBinary64_round, fun _ _ => roundBinary64_nearest q⟩

/-- A number that reaches a power of two does not round to 0 or below. -/
theorem roundBinary64_pos {q : Rat} {t : Int} (ht : -1074 ≤ t) (h : (2 : Rat) ^ t ≤ q) : 0 < roundBinary64 q := by
  by_contra hle
  have h2t : (0 : Rat) < 2 ^ t := by positivity
  have hnear := roundBinary64_nearest q (k := 1) (by norm_num) ht
  rw [Int.cast_one, one_mul, abs_of_nonpos (by linarith), abs_of_nonpos (by linarith)] at hnear
  linarith

/-! ### Ties -/

/-- A rounding has the sign of the exact value and the rounded magnitude. -/
theorem roundBinary64_eq_sign_mul (q : Rat) :
    roundBinary64 q = (q.num.sign : Rat) * roundMagnitude q.num.natAbs q.den := by
  rcases lt_trichotomy q.num 0 with hneg | hzero | hpos
  · simp [roundBinary64, hneg, hneg.ne, Int.sign_eq_neg_one_of_neg hneg]
  · simp [roundBinary64, hzero]
  · simp [roundBinary64, hpos.ne', hpos.not_gt, Int.sign_eq_one_of_pos hpos]

theorem natAbs_num_div_den (q : Rat) : (q.num.natAbs : Rat) / q.den = |q| := by
  rw [Rat.abs_def, Rat.divInt_eq_div]
  simp

/-- A last place whose 53 bits `q` fills is at most a last place whose 53 bits hold `q`. -/
theorem lastPlace_le {q : Rat} {u v : Int} (hv : -1074 ≤ v) (hu : u = -1074 ∨ (2 : Rat) ^ (u + 52) ≤ |q|)
    (hq : |q| < (2 : Rat) ^ (v + 53)) : u ≤ v := by
  rcases hu with rfl | hu
  · exact hv
  · have := (zpow_lt_zpow_iff_right₀ (show (1 : Rat) < 2 by norm_num)).mp (hu.trans_lt hq)
    omega

/-- The last place of `q` is the only exponent that gives it 53 bits, or fewer at the smallest exponent. -/
theorem binary64Quantum_unique {q : Rat} {t : Int} (hq : q ≠ 0) (ht : -1074 ≤ t)
    (hlo : t = -1074 ∨ (2 : Rat) ^ (t + 52) ≤ |q|) (hhi : |q| < (2 : Rat) ^ (t + 53)) :
    binary64Quantum q.num.natAbs q.den = t := by
  obtain ⟨ht', hhi', hlo'⟩ := binary64Quantum_spec (Int.natAbs_pos.mpr (Rat.num_ne_zero.mpr hq)) q.den_pos
  rw [natAbs_num_div_den] at hhi' hlo'
  exact le_antisymm (lastPlace_le ht hlo' hhi) (lastPlace_le ht' hlo hhi')

/-- The rounded magnitude in quanta: the scaled fraction rounded to a natural number. -/
theorem roundMagnitude_eq {a d : Nat} {t : Int} (ht : binary64Quantum a d = t) :
    roundMagnitude a d = (divNearestEven (a * 2 ^ (-t).toNat) (d * 2 ^ t.toNat) : Rat) * 2 ^ t := by
  subst ht
  rw [roundMagnitude, Rat.mkRat_eq_div, zpow_toNat]
  push_cast
  ring

/-- Half an odd number of quanta rounds to an even number of quanta. -/
theorem roundMagnitude_tie {a d m : Nat} {t : Int} (hd : 0 < d) (ht : binary64Quantum a d = t)
    (h : (a : Rat) / d = (2 * m + 1) / 2 * 2 ^ t) :
    ∃ j : Nat, roundMagnitude a d = ((2 * j : Nat) : Rat) * 2 ^ t := by
  have htie : 2 * (a * 2 ^ (-t).toNat) = (2 * m + 1) * (d * 2 ^ t.toNat) := by
    rw [zpow_toNat] at h
    field_simp at h
    exact_mod_cast (by linarith : 2 * ((a : Rat) * 2 ^ (-t).toNat) = (2 * m + 1) * (d * 2 ^ t.toNat))
  obtain ⟨j, hj⟩ := Nat.dvd_of_mod_eq_zero (divNearestEven_tie (by positivity) m htie)
  exact ⟨j, by rw [roundMagnitude_eq ht, hj]⟩

/-- A number half of `x` away from a multiple of `x` has the magnitude of half an odd number of `x`. -/
theorem abs_eq_half_odd_mul {x q : Rat} {k : Int} (hx : 0 < x) (h : |(k : Rat) * x - q| = x / 2) :
    ∃ m : Nat, |q| = (2 * m + 1) / 2 * x := by
  obtain ⟨c, hc⟩ : ∃ c : Int, q = ((2 * c + 1 : Int) : Rat) * (x / 2) := by
    rcases (abs_eq (by linarith)).mp h with h | h
    · exact ⟨k - 1, by push_cast; linarith⟩
    · exact ⟨k, by push_cast; linarith⟩
  obtain ⟨m, hm⟩ : ∃ m : Nat, (2 * c + 1).natAbs = 2 * m + 1 := ⟨(2 * c + 1).natAbs / 2, by omega⟩
  refine ⟨m, ?_⟩
  rw [hc, abs_mul, abs_of_pos (half_pos hx), ← Int.cast_abs, ← Nat.cast_natAbs, hm]
  push_cast
  ring

/-- Settles O39: the tie is a tie of the scaled magnitude, and the sign keeps an even multiple even. -/
theorem roundingTiesGoToEven : Obligations.RoundingTiesGoToEven := by
  intro q k t ht hlo hhi htie
  rcases eq_or_ne q 0 with rfl | hq
  · exact ⟨0, by simp⟩
  · obtain ⟨m, hm⟩ := abs_eq_half_odd_mul (by positivity) htie
    rw [← natAbs_num_div_den] at hm
    obtain ⟨j, hj⟩ := roundMagnitude_tie q.den_pos (binary64Quantum_unique hq ht hlo hhi) hm
    refine ⟨q.num.sign * j, ?_⟩
    rw [roundBinary64_eq_sign_mul, hj]
    push_cast
    ring

/-! ### The terms of the PID step -/

theorem errorRpm_eq (s : State) : errorRpm s = roundResult s.params.numerics ((errorQ6 s : Rat) / 64) :=
  numDiv_of_ne_zero _ _ (by norm_num)

theorem samplePeriod_eq (s : State) :
    samplePeriod s = roundResult s.params.numerics ((s.period_ms.toNat : Rat) / 1000) :=
  numDiv_of_ne_zero _ _ (by norm_num)

theorem gain_eq (n : Numerics) (g : U32) : gain n g = roundResult n ((g.toNat : Rat) / 1000000) :=
  numDiv_of_ne_zero _ _ (by norm_num)

theorem gainI_eq (s : State) :
    gainI s =
      if s.params.gainScaling = .perSecond then
        numMul s.params.numerics (gain s.params.numerics s.ki_u) (samplePeriod s)
      else gain s.params.numerics s.ki_u := by
  cases h : s.params.gainScaling <;> simp [gainI, h]

/-- A sample period is at least one millisecond, which no setting of NUMERICS rounds to 0. -/
theorem samplePeriod_ne_zero {s : State} (h : s.period_ms ≠ 0#32) : samplePeriod s ≠ 0 := by
  have hms : (1 : Rat) ≤ s.period_ms.toNat := by
    exact_mod_cast Nat.one_le_iff_ne_zero.mpr fun h0 => h (BitVec.eq_of_toNat_eq h0)
  rw [samplePeriod_eq]
  cases s.params.numerics with
  | exact => exact (div_pos (by linarith) (by norm_num)).ne'
  | binary64 =>
    have hq : (2 : Rat) ^ (-10 : Int) ≤ (s.period_ms.toNat : Rat) / 1000 := by
      rw [le_div_iff₀ (by norm_num)]
      exact le_trans (by norm_num) hms
    exact (roundBinary64_pos (by norm_num) hq).ne'

/-- With a nonzero period the derivative gain divides by no zero (log 12). -/
theorem gainD_eq {s : State} (h : s.period_ms ≠ 0#32) :
    gainD s =
      if s.params.gainScaling = .perSecond then
        roundResult s.params.numerics (gain s.params.numerics s.kd_u / samplePeriod s)
      else gain s.params.numerics s.kd_u := by
  cases hg : s.params.gainScaling <;> simp [gainD, hg, numDiv_of_ne_zero _ _ (samplePeriod_ne_zero h)]

theorem integralTerm_eq (s : State) :
    integralTerm s =
      if s.params.antiWindup = .integralClamp then
        clamp01 (numAdd s.params.numerics s.pid_I (numMul s.params.numerics (gainI s) (errorRpm s)))
      else numAdd s.params.numerics s.pid_I (numMul s.params.numerics (gainI s) (errorRpm s)) := by
  cases h : s.params.antiWindup <;> simp [integralTerm, h]

theorem derivativeTerm_eq (s : State) :
    derivativeTerm s =
      if s.params.derivOn = .measurement then
        numNeg s.params.numerics (numMul s.params.numerics (gainD s) (roundResult s.params.numerics
          (((s.rpm_q6.toNat - s.y_prev_q6.toNat : Int) : Rat) / 64)))
      else numMul s.params.numerics (gainD s) (roundResult s.params.numerics
        (((errorQ6 s - s.e_prev_q6 : Int) : Rat) / 64)) := by
  cases h : s.params.derivOn <;> simp [derivativeTerm, h, numDiv_of_ne_zero]

/-! ### The PID formula -/

/-- A TICK that is due leaves the integral term and the output it computed. -/
theorem exec_tick_computedTo {s : State} {i u : Rat} (hmotor : s.motor_en = true)
    (hdue : s.period_ms.toNat ≤ (s.now - s.pid_last_ms).toNat) (hi : integralTerm s = i) (hu : pidOutput s = u) :
    ∃ t, exec .tick s = .next t ∧ ComputedTo s t i u := by
  subst hi hu
  exact (computeHappensExactlyWhenDue s).1 ⟨hmotor, hdue⟩

/-- Settles O36: under EXACT no operator rounds, and each term of the step is the formula's. -/
theorem exactComputeIsThePidFormula : Obligations.ExactComputeIsThePidFormula := by
  intro s hn hmotor hperiod hdue y e ts kp ki kd i d
  have hq6 : (errorQ6 s : Rat) / 64 = e := by
    rw [errorQ6, Int.cast_sub]
    exact sub_div _ _ _
  have he : errorRpm s = e := by rw [errorRpm_eq, hn, roundResult_exact, hq6]
  have hts : samplePeriod s = ts := by rw [samplePeriod_eq, hn, roundResult_exact]
  have hgain (g : U32) : gain .exact g = (g.toNat : Rat) / 10 ^ 6 := by
    rw [gain_eq, roundResult_exact]
    norm_num
  have hki : gainI s = ki := by
    rw [gainI_eq, hn, hts, hgain, numMul_exact]
    simp only [ki, mul_ite, mul_one]
  have hkd : gainD s = kd := by
    rw [gainD_eq hperiod, hn, hts, hgain, roundResult_exact]
    simp only [kd, div_ite, div_one]
  have hi : integralTerm s = i := by
    rw [integralTerm_eq, hn, hki, he]
    rfl
  have hdy : ((s.rpm_q6.toNat - s.y_prev_q6.toNat : Int) : Rat) / 64 = y - (s.y_prev_q6.toNat : Rat) / 64 := by
    rw [Int.cast_sub]
    exact sub_div _ _ _
  have hde : ((errorQ6 s - s.e_prev_q6 : Int) : Rat) / 64 = e - (s.e_prev_q6 : Rat) / 64 := by
    rw [Int.cast_sub, sub_div, hq6]
  have hd : derivativeTerm s = d := by
    rw [derivativeTerm_eq, hn, hkd, roundResult_exact, roundResult_exact, hdy, hde]
    rfl
  refine exec_tick_computedTo hmotor hdue hi ?_
  rw [pidOutput, hn, gainP, hn, hgain, he, hi, hd]
  rfl

/-- Settles O37: under BINARY64 each operator of the step is one rounding, and no division is by zero. -/
theorem binary64ComputeRoundsEveryOperator : Obligations.Binary64ComputeRoundsEveryOperator := by
  intro s hn hmotor hperiod hdue fl eq6 e ts kp ki kd kis kds i0 i dy d
  have he : errorRpm s = e := by
    rw [errorRpm_eq, hn]
    rfl
  have hts : samplePeriod s = ts := by
    rw [samplePeriod_eq, hn]
    rfl
  have hki : gainI s = kis := by
    rw [gainI_eq, hn, hts, gain_eq]
    rfl
  have hkd : gainD s = kds := by
    rw [gainD_eq hperiod, hn, hts, gain_eq]
    rfl
  have hi : integralTerm s = i := by
    rw [integralTerm_eq, hn, hki, he]
    rfl
  have hd : derivativeTerm s = d := by
    rw [derivativeTerm_eq, hn, hkd]
    rfl
  refine exec_tick_computedTo hmotor hdue hi ?_
  rw [pidOutput, hn, gainP, hn, gain_eq, he, hi, hd]
  rfl

end Sys2Proof.Machine
end

section
/-! SUPPORT. Proofs of the statements of 44_motor_watchdog.md: what an effective check counts, what a TICK between two
checks leaves, that the watchdog touches nothing else, and the count of consecutive violations. -/

namespace Sys2Proof.Machine

/-! ### The watchdog after the PID step -/

/-- No term of the PID step reads a watchdog register, so a compute carries them along. -/
theorem pidCompute_withWatchdog (s : State) (count : U16) (last : U32) :
    pidCompute { s with wd_count := count, wd_last_ms := last } =
      { pidCompute s with wd_count := count, wd_last_ms := last } := by
  rw [pidCompute_eq, pidCompute_eq]
  rfl

/-- The PID step neither reads nor writes the watchdog's registers (43_speed_regulator.md R132). -/
theorem pidStep_withWatchdog (s : State) (count : U16) (last : U32) :
    pidStep { s with wd_count := count, wd_last_ms := last } =
      ((pidStep s).1, { (pidStep s).2 with wd_count := count, wd_last_ms := last }) := by
  have hdue : pidDue { s with wd_count := count, wd_last_ms := last } = pidDue s := rfl
  rcases pidStep_cases s with ⟨h, he⟩ | ⟨h, he⟩ <;> rw [he, pidStep, hdue, h]
  · exact congrArg (Prod.mk true) (pidCompute_withWatchdog s count last)
  · rfl

/-- The gate of a TICK's watchdog step is that of the state before the command (45_tick_and_queries.md R172). -/
@[simp] theorem wdDue_pidStep (s : State) : wdDue (pidStep s).2 = wdDue s := by
  obtain ⟨-, -, -, -, -, -, -, -, -, -, -, -, -, hlast, hparams, -, hnow⟩ := pidStep_frame s
  rw [wdDue, hlast, hparams, hnow, wdDue]

/-- A TICK counts by the state before the command (45_tick_and_queries.md R172). -/
@[simp] theorem wdNextCount_pidStep (s : State) : wdNextCount (pidStep s).2 = wdNextCount s := by
  obtain ⟨-, -, -, hrpm, -, -, hsp, -, -, -, -, hmotor, hcount, -⟩ := pidStep_frame s
  rw [wdNextCount, hrpm, hsp, hmotor, hcount, wdNextCount]

@[simp] theorem wdFault_pidStep (s : State) : wdFault (pidStep s).2 = wdFault s := by
  obtain ⟨-, -, -, -, -, -, -, -, -, -, -, -, hcount, -, hparams, -, -⟩ := pidStep_frame s
  rw [wdFault, hcount, hparams, wdFault]

/-- The watchdog registers after a TICK whose interval has passed. -/
theorem exec_tick_of_wdDue {s : State} (h : wdDue s = true) :
    ∃ t, exec .tick s = .next t ∧ t.wd_last_ms = s.now ∧ t.wd_count = wdNextCount s := by
  obtain ⟨-, -, -, -, -, -, -, -, -, -, -, -, -, -, -, -, hnow⟩ := pidStep_frame s
  refine ⟨_, execTick_eq s, ?_⟩
  simp [wdStep_eq, h, hnow]

/-- A TICK whose interval has not passed is the PID step, and its response carries the fault as it was. -/
theorem exec_tick_of_not_wdDue {s : State} (h : wdDue s = false) :
    exec .tick s = .next (respond .ok (tickValue (pidStep s).1 false (wdFault s)) (pidStep s).2) := by
  refine (execTick_eq s).trans ?_
  simp [wdStep, h]

/-! ### The band and the counter -/

/-- The band in exact integers is the band in rationals (44_motor_watchdog.md R162). -/
theorem outOfBand_iff (y : U16) (sp : U32) :
    outOfBand y sp = true ↔
      (y.toNat : Rat) < 8 / 10 * (sp.toNat : Rat) ∨ 11 / 10 * (sp.toNat : Rat) < (y.toNat : Rat) := by
  have hlo : (y.toNat : Rat) < 8 / 10 * (sp.toNat : Rat) ↔ 10 * y.toNat < 8 * sp.toNat := by
    rw [← Nat.cast_lt (α := Rat)]
    push_cast
    constructor <;> intro h <;> linarith
  have hhi : 11 / 10 * (sp.toNat : Rat) < (y.toNat : Rat) ↔ 11 * sp.toNat < 10 * y.toNat := by
    rw [← Nat.cast_lt (α := Rat)]
    push_cast
    constructor <;> intro h <;> linarith
  simp [outOfBand, hlo, hhi]

/-- The next count as a number: the saturated sum fits the register (44_motor_watchdog.md R163). -/
theorem toNat_wdNextCount (s : State) :
    (wdNextCount s).toNat =
      if s.motor_en = true ∧ outOfBand s.rpm_q6 s.sp_q6 = true then min (s.wd_count.toNat + 1) 65535 else 0 := by
  have hfits : min (s.wd_count.toNat + 1) 65535 < 2 ^ 16 := by omega
  rw [wdNextCount, apply_ite BitVec.toNat, BitVec.toNat_ofNat, Nat.mod_eq_of_lt hfits]
  simp

/-- Settles O40: an effective check stores the next count, whose condition is the band in rationals. -/
theorem effectiveCheckCountsViolations : Obligations.EffectiveCheckCountsViolations := by
  intro s h
  obtain ⟨t, ht, hlast, hcount⟩ := exec_tick_of_wdDue ((wdDue_iff s).mpr h)
  refine ⟨t, ht, hlast, ?_⟩
  simp only [hcount, toNat_wdNextCount, outOfBand_iff]

/-! ### Between two checks -/

theorem exec_keeps_wd_count {i : Instr} {s t : State} (h : exec i s = .next t) (ht : i ≠ .tick)
    (he : i ≠ .enable) : t.wd_count = s.wd_count := by
  obtain ⟨-, -, -, -, -, -, hcount, -⟩ := registersAreWrittenOnlyByTheirCommands i s t h
  exact hcount ht he

/-- Settles O41: before the interval a TICK is its PID step, which leaves the watchdog's registers; the other commands
do not own the counter (10_state.md R43). -/
theorem noCheckBeforeTheInterval : Obligations.NoCheckBeforeTheInterval := by
  intro s hearly
  have hdue : wdDue s = false := decide_eq_false hearly.not_ge
  have htick := exec_tick_of_not_wdDue hdue
  obtain ⟨-, -, -, -, -, -, -, -, -, -, -, -, hcount, hlast, -⟩ := pidStep_frame s
  obtain ⟨-, -, hchecked, -⟩ := tickValue_spec (pidStep s).1 false (wdFault s)
  refine ⟨⟨_, _, htick, hcount, hlast, wdFault_pidStep s, rfl, hchecked⟩, fun i t hi ht => ?_⟩
  by_cases hitick : i = .tick
  · subst hitick
    cases htick.symm.trans ht
    exact hcount
  · exact exec_keeps_wd_count ht hitick hi

/-! ### The watchdog is advisory -/

/-- Whatever the watchdog's registers hold, TICK leaves the PID step's state but for them and the response. -/
theorem exec_tick_withWatchdog (s : State) (count : U16) (last : U32) :
    ∃ c l r, exec .tick { s with wd_count := count, wd_last_ms := last } =
      .next { (pidStep s).2 with wd_count := c, wd_last_ms := l, response := r } := by
  have htick := execTick_eq { s with wd_count := count, wd_last_ms := last }
  rw [pidStep_withWatchdog, wdStep_eq] at htick
  exact ⟨_, _, _, htick⟩

/-- Settles O42: with either contents of the watchdog's registers, TICK leaves the same PID step's state but for them
and the response. -/
theorem watchdogNeverTouchesTheMotor : Obligations.WatchdogNeverTouchesTheMotor := by
  intro s count last
  obtain ⟨_, _, _, htick⟩ := exec_tick_withWatchdog s s.wd_count s.wd_last_ms
  obtain ⟨c, l, r, hother⟩ := exec_tick_withWatchdog s count last
  exact ⟨_, c, l, r, htick, exec_keeps_motor_en htick (by simp) (by simp), hother⟩

/-! ### Consecutive violating checks -/

/-- Every TICK still to come, at the given clock samples, is an effective check that finds the motor enabled and the
speed out of band. -/
structure Violating (nows : List U32) (s : State) : Prop where
  enabled : s.motor_en = true
  outOfBand : outOfBand s.rpm_q6 s.sp_q6 = true
  spaced : SpacedBy s.params.wdIntervalMs s.wd_last_ms nows
  pending : s.pending = nows.map fun n => Input.command (encode .tick) n

/-- The next TICK counts one violation, and the TICKs after it are violating checks again. -/
theorem Violating.step {now : U32} {nows : List U32} {s : State} (h : Violating (now :: nows) s) :
    ∃ t, step s = .next t ∧ Violating nows t ∧ t.params = s.params ∧
      t.wd_count.toNat = min (s.wd_count.toNat + 1) 65535 := by
  obtain ⟨hmotor, hband, ⟨hdue, hspaced⟩, hpending⟩ := h
  obtain ⟨t, ht, hlast, hcount⟩ := exec_tick_of_wdDue
    ((wdDue_iff (beginCommand now (nows.map fun n => Input.command (encode .tick) n) s)).mpr hdue)
  obtain ⟨hframe, hsp, -, -, -, hmotor', -, -, hparams, hpending', -⟩ :=
    registersAreWrittenOnlyByTheirCommands .tick _ t ht
  obtain ⟨-, -, -, hrpm, -⟩ := hframe (by simp)
  refine ⟨t, (step_command hpending (decodeInvertsEncode .tick)).trans ht, ?_, hparams, ?_⟩
  · refine ⟨(hmotor' (by simp) (by simp)).trans hmotor, ?_, ?_, hpending'⟩
    · rw [hrpm, hsp (by simp)]
      exact hband
    · rw [hparams, hlast]
      exact hspaced
  · rw [hcount, toNat_wdNextCount]
    exact if_pos ⟨hmotor, hband⟩

/-- Consecutive violating checks count themselves, saturating, from any count. -/
theorem Violating.run {nows : List U32} {s : State} (h : Violating nows s) :
    ∃ t, Sys2Proof.core.run nows.length s = .next t ∧ t.motor_en = true ∧ t.params = s.params ∧
      t.wd_count.toNat = min (s.wd_count.toNat + nows.length) 65535 := by
  induction nows generalizing s with
  | nil =>
    have hfits := s.wd_count.isLt
    exact ⟨s, rfl, h.enabled, rfl, by rw [List.length_nil]; omega⟩
  | cons now nows ih =>
    obtain ⟨u, hu, hviolating, hparams, hcount⟩ := h.step
    obtain ⟨t, ht, hmotor, hparams', hcount'⟩ := ih hviolating
    refine ⟨t, ?_, hmotor, hparams'.trans hparams, ?_⟩
    · rw [List.length_cons, run_succ, hu]
      exact ht
    · rw [hcount', hcount, List.length_cons]
      omega

/-- Settles O45: from a cleared counter the count is the number of checks, and the fault compares it with the
threshold. -/
theorem faultShowsAfterThresholdViolations : Obligations.FaultShowsAfterThresholdViolations := by
  intro nows s hmotor hband hzero hspaced hpending
  obtain ⟨t, ht, hmotor', hparams, hcount⟩ := Violating.run ⟨hmotor, hband, hspaced, hpending⟩
  have hchecks : t.wd_count.toNat = min nows.length 65535 := by simpa [hzero] using hcount
  exact ⟨t, ht, hchecks, by simp [wdFault, hparams, hchecks], hmotor'⟩

end Sys2Proof.Machine
end

section
/-! SUPPORT. Proofs of the statements of 45_tick_and_queries.md: what a step does with a legal and with an illegal word,
the three queries, TICK's response, and that a second TICK at the same clock sample finds both gates closed. -/

namespace Sys2Proof.Machine

/-! ### Dispatch -/

/-- Settles O6: a step begins the command and runs its instruction. -/
theorem stepRunsTheDecodedCommand : Obligations.StepRunsTheDecodedCommand :=
  fun _ _ _ _ _ hpending hdecode => step_command hpending hdecode

/-- No instruction's word is illegal: its opcode is defined, and the fields its format does not use are zero
(30_encoding.md R72, R83). -/
theorem not_illegalWord_encode (i : Instr) : ¬IllegalWord (encode i) := by
  cases i with
  | feedByte b => simp [IllegalWord, encode, fields_packWord, highBits_of_byte]
  | tick | enable | disable | setTarget | setTunings | setPeriod | getRpm | getEnabled | getRotPeriod =>
    simp [IllegalWord, encode, fields_packWord]

theorem exists_decode_error_of_illegalWord {w : CommandWord} (h : IllegalWord w) : ∃ e, decode w = .error e := by
  cases hdecode : decode w with
  | error e => exact ⟨e, rfl⟩
  | ok i =>
    rw [← encodeInvertsDecode w i hdecode] at h
    exact absurd h (not_illegalWord_encode i)

/-- Settles O7: an illegal word does not decode, and the illegal answer writes the response alone. -/
theorem illegalWordsAreAnsweredWithNoEffect : Obligations.IllegalWordsAreAnsweredWithNoEffect := by
  intro s w now rest hpending hillegal
  obtain ⟨e, hdecode⟩ := exists_decode_error_of_illegalWord hillegal
  exact ⟨_, step_illegal hpending hdecode, rfl, rfl, by simp [SameRegisters]⟩

/-! ### The queries -/

/-- GET_ENABLED's response value is the motor enable as a number (45_tick_and_queries.md R175). -/
theorem setWidth_ofBool_eq_ite (b : Bool) : (BitVec.ofBool b).setWidth 32 = if b then 1#32 else 0#32 := by
  cases b <;> rfl

/-- Settles O32: each query is a response that carries its register. -/
theorem queriesAnswerAndChangeNothing : Obligations.QueriesAnswerAndChangeNothing := by
  intro s
  refine ⟨rfl, ?_, rfl⟩
  rw [← setWidth_ofBool_eq_ite]
  rfl

/-! ### TICK's response -/

/-- The PID step says whether it computed (43_speed_regulator.md R132). -/
@[simp] theorem pidStep_fst (s : State) : (pidStep s).1 = pidDue s := by
  rcases pidStep_cases s with ⟨hdue, he⟩ | ⟨hdue, he⟩ <;> rw [he, hdue]

/-- The watchdog step says whether its check was effective (44_motor_watchdog.md R161). -/
@[simp] theorem wdStep_fst (s : State) : (wdStep s).1 = wdDue s := by
  rw [wdStep_eq]

/-- TICK completes, and its response reports both gates as they stood before the command and the fault after it
(45_tick_and_queries.md R173). -/
theorem exec_tick_response (s : State) :
    ∃ t, exec .tick s = .next t ∧ t.response = some ⟨.ok, tickValue (pidDue s) (wdDue s) (wdFault t)⟩ := by
  refine ⟨_, execTick_eq s, ?_⟩
  rw [pidStep_fst, wdStep_fst, wdDue_pidStep]
  rfl

/-- Settles O33: the three bits are the fault after the tick and the two gates before it. -/
theorem tickReportsFaultCheckAndCompute : Obligations.TickReportsFaultCheckAndCompute := by
  intro s
  obtain ⟨t, ht, hresponse⟩ := exec_tick_response s
  obtain ⟨hlt, hfault, hchecked, hcomputed⟩ := tickValue_spec (pidDue s) (wdDue s) (wdFault t)
  refine ⟨t, _, ht, hresponse, hlt, ?_, ?_, ?_⟩
  · rw [hfault]
    exact decide_eq_true_iff
  · rw [hchecked]
    exact wdDue_iff s
  · rw [hcomputed]
    exact pidDue_iff s

/-! ### A second TICK at the same clock sample -/

@[simp] theorem elapsed_self (now : U32) : elapsed now now = 0#32 := BitVec.sub_self now

/-- No time has passed since the last compute, so a nonzero period keeps the PID step's gate closed. -/
theorem pidDue_eq_false_of_last {s : State} (hlast : s.pid_last_ms = s.now) (hperiod : s.period_ms ≠ 0#32) :
    pidDue s = false := by
  have hne : s.period_ms.toNat ≠ 0 := fun h => hperiod (BitVec.eq_of_toNat_eq h)
  simp [pidDue, hlast, hne]

/-- No time has passed since the last effective check, so a nonzero interval keeps the watchdog's gate closed. -/
theorem wdDue_eq_false_of_last {s : State} (hlast : s.wd_last_ms = s.now) (hinterval : 0 < s.params.wdIntervalMs) :
    wdDue s = false := by
  simp [wdDue, hlast, hinterval.ne']

/-- A TICK closes the PID step's gate for its own clock sample. -/
theorem pidDue_after_tick {s t : State} (hperiod : s.period_ms ≠ 0#32) (ht : exec .tick s = .next t) :
    pidDue t = false := by
  obtain ⟨last, count, r, ⟨-, he⟩ | ⟨hdue, he⟩⟩ := execTick_cases s <;> cases he.symm.trans ht
  · rw [pidCompute_eq]
    exact pidDue_eq_false_of_last rfl hperiod
  · exact hdue

/-- A TICK closes the watchdog's gate for its own clock sample. -/
theorem wdDue_after_tick {s t : State} (hinterval : 0 < s.params.wdIntervalMs) (ht : exec .tick s = .next t) :
    wdDue t = false := by
  obtain ⟨-, -, -, -, -, -, -, -, hparams, -, hnow⟩ := registersAreWrittenOnlyByTheirCommands .tick s t ht
  cases hdue : wdDue s with
  | true =>
    obtain ⟨u, hu, hlast, -⟩ := exec_tick_of_wdDue hdue
    cases hu.symm.trans ht
    exact wdDue_eq_false_of_last (hlast.trans hnow.symm) (hparams ▸ hinterval)
  | false =>
    cases (exec_tick_of_not_wdDue hdue).symm.trans ht
    exact (wdDue_pidStep s).trans hdue

/-- With both gates closed a TICK answers the fault and changes nothing. -/
theorem exec_tick_of_gates_closed {t : State} (hpid : pidDue t = false) (hwd : wdDue t = false) :
    exec .tick t = .next (respond .ok (tickValue false false (wdFault t)) t) := by
  have hstep : pidStep t = (false, t) := by simp [pidStep, hpid]
  rw [exec_tick_of_not_wdDue hwd, hstep]

/-- Settles O43: the first TICK closes both gates, so the second changes nothing and answers the fault bit alone. -/
theorem repeatedTickDoesNothing : Obligations.RepeatedTickDoesNothing := by
  intro s t hperiod hinterval ht
  have hfault : (tickValue false false (wdFault t)).toNat ≤ 1 := by
    cases wdFault t <;> decide
  exact ⟨_, hfault, exec_tick_of_gates_closed (pidDue_after_tick hperiod ht) (wdDue_after_tick hinterval ht)⟩

end Sys2Proof.Machine
end

section
/-! SUPPORT. Proofs of the statements of 60_exceptions.md: what a checksum failure changes, the order and the kinds of
the events, and a step with nothing presented. -/

namespace Sys2Proof.Machine

/-! ### Nothing presented -/

/-- Settles O8: a step without an input is idle. -/
theorem nothingPresentedNothingChanges : Obligations.NothingPresentedNothingChanges := fun _ => step_idle

/-! ### A checksum failure -/

/-- Settles O20: a frame that does not validate is not accepted under either policy, and its cause is the checksum. -/
theorem checksumFailureChangesOnlyTheAssembler : Obligations.ChecksumFailureChangesOnlyTheAssembler := by
  intro b s hs hidx hinvalid
  have hnot : ¬FrameAccepted s.params.idxPolicy (s.buf.write 21 b) := fun ⟨hvalid, _⟩ => by simp [hinvalid] at hvalid
  have hcause : rejectionCause (s.buf.write 21 b) = 1#2 := by simp [rejectionCause, hinvalid]
  rw [exec_lastByte_rejected hs hidx rfl hnot, hcause]

/-! ### The events of each command -/

/-- From `s` to `t` the events of the command `i` are appended, as its response in `t` says. -/
def AppendsEventsOf (i : Instr) (s t : State) : Prop := ∃ es, t.events = s.events ++ es ∧ EventsOf i t.response es

/-- The samples of a frame follow the angle of its notification (42_frame_decoder.md R112, R118). -/
theorem quadSample_angle_eq_add (m : Memory) (i : Nat) :
    (quadSample m i).angle = angleField (firstAngle m) + BitVec.ofNat 16 i := by
  change BitVec.ofInt 16 (firstAngle m + i) = BitVec.ofInt 16 (firstAngle m) + BitVec.ofNat 16 i
  rw [BitVec.ofInt_add, BitVec.ofInt_natCast]

theorem eventsOf_failureEvent (b : Byte) (cause : BitVec 2) :
    EventsOf (.feedByte b) (some ⟨.ok, feedByteValue false true⟩) [failureEvent cause] :=
  .inr (.inl ⟨rfl, _, rfl, rfl⟩)

theorem eventsOf_acceptedEvents (b : Byte) (m : Memory) :
    EventsOf (.feedByte b) (some ⟨.ok, feedByteValue true true⟩) (acceptedEvents m) :=
  have hfirst : (quadSample m 0).angle = angleField (firstAngle m) := by simp [quadSample_angle_eq_add]
  .inr (.inr ⟨rfl, _, _, _, _, _, rfl, hfirst, quadSample_angle_eq_add m 1, quadSample_angle_eq_add m 2,
    quadSample_angle_eq_add m 3, rfl⟩)

/-- The pipeline's events are those of the outcome it returns. -/
theorem frameComplete_eventsOf (b : Byte) (s : State) :
    ∃ es, (frameComplete s).2.events = s.events ++ es ∧
      EventsOf (.feedByte b) (some ⟨.ok, feedByteValue (frameComplete s).1 true⟩) es := by
  rcases frameComplete_cases s with ⟨-, he⟩ | ⟨-, -, -, he⟩ | ⟨-, -, he⟩ <;> rw [he]
  · exact ⟨_, rfl, eventsOf_failureEvent b 1#2⟩
  · exact ⟨_, rfl, eventsOf_failureEvent b 2#2⟩
  · rw [decodeFrame_eq]
    exact ⟨_, rfl, eventsOf_acceptedEvents b s.buf⟩

theorem seekByte_events (b : Byte) (s : State) : (seekByte b s).events = s.events := by
  rcases seekByte_cases b s with ⟨-, he⟩ | ⟨-, he⟩ <;> rw [he]

theorem advanceFrame_appendsEventsOf (b : Byte) (s : State) : AppendsEventsOf (.feedByte b) s (advanceFrame s) := by
  rcases advanceFrame_cases s with ⟨-, he⟩ | ⟨-, he⟩ <;> rw [he]
  · exact ⟨[], by simp, .inl ⟨rfl, rfl⟩⟩
  · exact frameComplete_eventsOf b { s with asm_idx := s.asm_idx + 1#5 }

theorem execFeedByte_appendsEventsOf {b : Byte} {s t : State} (h : execFeedByte b s = .next t) :
    AppendsEventsOf (.feedByte b) s t := by
  rcases execFeedByte_cases b s with ⟨-, he⟩ | ⟨-, -, he⟩ | ⟨-, -, he⟩ <;> cases he.symm.trans h
  · exact ⟨[], by simp [seekByte_events], .inl ⟨rfl, rfl⟩⟩
  · exact advanceFrame_appendsEventsOf b { s with buf := s.buf.write s.asm_idx.toNat b }

/-- A compute emits at most the event of the driver (43_speed_regulator.md R141). -/
theorem pidCompute_events (s : State) :
    ∃ es, (pidCompute s).events = s.events ++ es ∧ (es = [] ∨ ∃ u, es = [.pwm u]) := by
  rw [pidCompute_eq]
  by_cases hu : pidOutput s = s.pwm_duty
  · exact ⟨[], by simp [hu], .inl rfl⟩
  · exact ⟨[.pwm (pidOutput s)], by simp [hu], .inr ⟨_, rfl⟩⟩

/-- Settles O47: FEED_BYTE by the outcome of the pipeline, TICK by its compute; ENABLE and DISABLE set the driver once,
and the other commands emit nothing. -/
theorem eventsFollowTheFixedOrder : Obligations.EventsFollowTheFixedOrder := by
  intro i s t h
  cases i with
  | feedByte b => exact execFeedByte_appendsEventsOf h
  | tick =>
    obtain ⟨last, count, r, ⟨-, he⟩ | ⟨-, he⟩⟩ := execTick_cases s <;> cases he.symm.trans h
    · exact pidCompute_events s
    · exact ⟨[], by simp, .inl rfl⟩
  | enable | disable =>
    cases h
    exact ⟨_, rfl, _, rfl⟩
  | setPeriod ms =>
    rcases execSetPeriod_cases ms s with ⟨-, he⟩ | ⟨-, he⟩ <;> cases he.symm.trans h <;> exact ⟨[], by simp, rfl⟩
  | setTarget | setTunings | getRpm | getEnabled | getRotPeriod =>
    cases h
    exact ⟨[], by simp, rfl⟩

end Sys2Proof.Machine
end

section
/-! SUPPORT. Proofs of the statements of 70_reset_and_hazards.md: what a reset between two commands sets and what it
leaves unchanged. -/

namespace Sys2Proof.Machine

/-- Reset gives the table for the instance's own parameters, whatever the registers held (70_reset_and_hazards.md
R220). -/
theorem applyReset_hasResetRegisters (rest : List Input) (s : State) :
    HasResetRegisters s.params (applyReset rest s) := by
  simp [HasResetRegisters, applyReset, State.resetWith]

/-- A cleared counter exceeds no threshold (44_motor_watchdog.md R164). -/
theorem wdFault_eq_false_of_wd_count {s : State} (h : s.wd_count = 0#16) : wdFault s = false := by
  simp [wdFault, h]

/-- Settles O9: the step is `applyReset`, which clears the counter that the fault level reads. -/
theorem resetSetsEveryRegister : Obligations.ResetSetsEveryRegister := fun s rest h =>
  ⟨applyReset rest s, step_reset h, applyReset_hasResetRegisters rest s, rfl, wdFault_eq_false_of_wd_count rfl,
    rfl, rfl⟩

/-- Settles O10: `applyReset` takes only the reset itself from the inputs and copies the clock sample from the state
before it. -/
theorem resetKeepsTheHostsInputs : Obligations.ResetKeepsTheHostsInputs := fun s rest h =>
  ⟨applyReset rest s, step_reset h, rfl, rfl⟩

end Sys2Proof.Machine
end
